-- ==== Sys2Proof/Word.lean ====
section
/-! DEFINITION. The word types of the block: a bus byte, a 16-bit operand field and the 64-bit
command word (spec/00_scope.md R7, R8; spec/30_encoding.md R60). -/

namespace Sys2Proof

/-- A `u8`: one byte of a bus transaction, of an operand field or of a response (R8). -/
abbrev Byte := BitVec 8

/-- A `u16`: the fields X, Y and Z of the command word (R8, R61). -/
abbrev Half := BitVec 16

/-- A `u64`: one command word (R60). It is one value on the command port and has no byte order. -/
abbrev Word := BitVec 64

end Sys2Proof
end

