-- ==== Sys2Proof/Syntax.lean ====
section
/-! DEFINITION. The commands of PXTM-ENC command set 1: one constructor of `Instr` for each row of
the opcode map (spec/30_encoding.md R64), with the operands of R62 and R63 as the integers the rules
compute with (spec/00_scope.md R8). Operand ranges are checked in WellFormed.lean. -/

namespace Sys2Proof

/-- The stepper-pair selector (R63: `P = 0` selects Pair1, `P = 1` selects Pair2). -/
inductive Pair where
  | pair1
  | pair2
deriving DecidableEq, Repr

/-- The direction (R63: `D = 0` selects Clockwise, `D = 1` selects CounterClockwise). -/
inductive Dir where
  | cw
  | ccw
deriving DecidableEq, Repr

/-- The opposite direction (R75: `opp(CW) = CCW`, `opp(CCW) = CW`). -/
def Dir.opp : Dir → Dir
  | .cw => .ccw
  | .ccw => .cw

/-- The four coils of a stepper pair (spec/42_stepper.md R102). -/
inductive Coil where
  | A
  | B
  | C
  | D
deriving DecidableEq, Repr

/-- The nine commands of R64. Operands: `ch` (CH), `on` (ON), `off` (OFF), `deg` (DEG), `reg` (REG)
and `val` (VAL) are the assembled operands of R63; `p` and `d` are P and D. -/
inductive Instr where
  /-- INIT: explicit one-time initialization (R90). -/
  | init
  /-- SETCH: set one channel's tick window, initializing first (R94). -/
  | setch (ch on off : Nat)
  /-- STEP: drive one stepper pair in one direction (R100). -/
  | step (p : Pair) (d : Dir)
  /-- SERVO: set the pen servo's angle (R110). -/
  | servo (deg : Int)
  /-- STOPALL: zero the tick windows of all eight motor channels (R104). -/
  | stopall
  /-- SETWIN: raw channel-window write, without initialization (R80). -/
  | setwin (ch on off : Nat)
  /-- WRREG: raw register write (R82). -/
  | wrreg (reg val : Nat)
  /-- WRCMD: raw 1-byte command write (R83). -/
  | wrcmd (val : Nat)
  /-- RDREG: raw register read (R84). -/
  | rdreg (reg : Nat)
deriving DecidableEq, Repr

end Sys2Proof
end

