-- ==== Sys2Proof/WellFormed.lean ====
section
/-! DEFINITION. Which terms of `Instr` are commands: the operand ranges of spec/30_encoding.md R63 and
R68 (CH, REG in 0..255; ON, OFF, VAL in 0..65535; DEG in -32768..32767). "Within a legal opcode,
operand values are never illegal" (R66): every value in range is a command. -/

namespace Sys2Proof

/-- A value that fits the 8-bit field A. -/
abbrev fitsU8 (v : Nat) : Prop := v ≤ 255

/-- A value that fits a 16-bit field. -/
abbrev fitsU16 (v : Nat) : Prop := v ≤ 65535

/-- A value that fits a 16-bit two's-complement field. -/
abbrev fitsS16 (v : Int) : Prop := -32768 ≤ v ∧ v ≤ 32767

/-- The operand ranges of R63 and R68, one clause per command. -/
def Instr.wellFormed : Instr → Bool
  | .init => true
  | .setch ch on off => decide (fitsU8 ch ∧ fitsU16 on ∧ fitsU16 off)
  | .step _ _ => true
  | .servo deg => decide (fitsS16 deg)
  | .stopall => true
  | .setwin ch on off => decide (fitsU8 ch ∧ fitsU16 on ∧ fitsU16 off)
  | .wrreg reg val => decide (fitsU8 reg ∧ fitsU16 val)
  | .wrcmd val => decide (fitsU16 val)
  | .rdreg reg => decide (fitsU8 reg)

/-- `i` is a command of the command set: every operand is in the range its field holds. -/
abbrev Instr.WellFormed (i : Instr) : Prop := i.wellFormed = true

end Sys2Proof
end

