-- ==== Sys2Proof/Decode.lean ====
section
/-! DEFINITION. From a command word to a command and back (spec/30_encoding.md R60 to R69). `decode`
is total on all 2^64 words and follows R65: it looks for the row of the opcode map whose mask and
match the word meets. A word no row matches is illegal, for one of the two causes of R66. `encode`
is R69, built from the same five fields (R61). -/

namespace Sys2Proof

/-! ## The five fields of the command word (R61) -/

/-- `OP = cmd[63:56]`. -/
def opField (w : Word) : Byte := w.extractLsb' 56 8

/-- `A = cmd[55:48]`. -/
def aField (w : Word) : Byte := w.extractLsb' 48 8

/-- `X = cmd[47:32]`. -/
def xField (w : Word) : Half := w.extractLsb' 32 16

/-- `Y = cmd[31:16]`. -/
def yField (w : Word) : Half := w.extractLsb' 16 16

/-- `Z = cmd[15:0]`, reserved. -/
def zField (w : Word) : Half := w.extractLsb' 0 16

/-- `sext_16(v)`: v if v < 0x8000, otherwise v - 0x10000 (spec/00_scope.md R8). -/
def sext16 (v : Half) : Int :=
  if v.toNat < 0x8000 then (v.toNat : Int) else (v.toNat : Int) - 0x10000

/-- `enc16(v) = v mod 65536`, for any integer v (spec/00_scope.md R9). -/
def enc16 (v : Int) : Half := BitVec.ofInt 16 v

/-- `P = cmd[48]`: 0 is Pair1, 1 is Pair2 (R63). -/
def pairOf (w : Word) : Pair := if w.getLsbD 48 then .pair2 else .pair1

/-- `D = cmd[32]`: 0 is CW, 1 is CCW (R63). -/
def dirOf (w : Word) : Dir := if w.getLsbD 32 then .ccw else .cw

/-! ## The opcode map (R64) -/

/-- The mnemonic column of R64. -/
inductive Mnemonic where
  | INIT
  | SETCH
  | STEP
  | SERVO
  | STOPALL
  | SETWIN
  | WRREG
  | WRCMD
  | RDREG
deriving DecidableEq, Repr

/-- One row of R64: the row's match value and its mask. -/
structure OpcodeRow where
  mnemonic : Mnemonic
  pattern : Word
  mask : Word
deriving DecidableEq, Repr

/-- The nine rows of R64, as the opcode table gives them. -/
def opcodeTable : List OpcodeRow :=
  [ ⟨.INIT, 0x0100000000000000#64, 0xFFFFFFFFFFFFFFFF#64⟩,
    ⟨.SETCH, 0x0200000000000000#64, 0xFF0000000000FFFF#64⟩,
    ⟨.STEP, 0x0300000000000000#64, 0xFFFEFFFEFFFFFFFF#64⟩,
    ⟨.SERVO, 0x0400000000000000#64, 0xFFFF0000FFFFFFFF#64⟩,
    ⟨.STOPALL, 0x0500000000000000#64, 0xFFFFFFFFFFFFFFFF#64⟩,
    ⟨.SETWIN, 0x1000000000000000#64, 0xFF0000000000FFFF#64⟩,
    ⟨.WRREG, 0x1100000000000000#64, 0xFF000000FFFFFFFF#64⟩,
    ⟨.WRCMD, 0x1200000000000000#64, 0xFFFF0000FFFFFFFF#64⟩,
    ⟨.RDREG, 0x1300000000000000#64, 0xFF00FFFFFFFFFFFF#64⟩ ]

/-- A word selects a row when `(w & mask) = match` (R64). -/
def OpcodeRow.selects (r : OpcodeRow) (w : Word) : Bool := (w &&& r.mask) == r.pattern

/-- Operand assembly (R63), by the row's format (R62). -/
def assemble (m : Mnemonic) (w : Word) : Instr :=
  match m with
  | .INIT => .init
  | .SETCH => .setch (aField w).toNat (xField w).toNat (yField w).toNat
  | .STEP => .step (pairOf w) (dirOf w)
  | .SERVO => .servo (sext16 (xField w))
  | .STOPALL => .stopall
  | .SETWIN => .setwin (aField w).toNat (xField w).toNat (yField w).toNat
  | .WRREG => .wrreg (aField w).toNat (xField w).toNat
  | .WRCMD => .wrcmd (xField w).toNat
  | .RDREG => .rdreg (aField w).toNat

/-! ## Decoding (R65, R66) -/

/-- Why a word is ILLEGAL: the two cases of R66, which are the two causes R122 names. -/
inductive IllegalCause where
  /-- R66 (a): OP is not one of 0x01 to 0x05 or 0x10 to 0x13. -/
  | unassignedOpcode
  /-- R66 (b): OP is assigned, but a bit that must be zero is 1. -/
  | nonzeroReservedBit
deriving DecidableEq, Repr

/-- `Command | ILLEGAL`, the result type of R65's decode. -/
inductive Decoded where
  | command (i : Instr)
  | illegal (why : IllegalCause)
deriving DecidableEq, Repr

/-- The opcode values R64 assigns: the OP byte of some row's match value. -/
def opAssigned (op : Byte) : Bool := opcodeTable.any fun r => opField r.pattern == op

/-- R65's decode: the row that matches, or ILLEGAL with the case of R66 that holds. -/
def decode (w : Word) : Decoded :=
  match opcodeTable.find? fun r => r.selects w with
  | some r => .command (assemble r.mnemonic w)
  | none => .illegal (if opAssigned (opField w) then .nonzeroReservedBit else .unassignedOpcode)

/-- The command of a decoded word, if it is one. -/
def Decoded.command? : Decoded → Option Instr
  | .command i => some i
  | .illegal _ => none

/-- The host's reading of one opcode-table word. A command is one 64-bit word, so bit 0 of the table
is bit 0 of the word. `nbits` says how many of the bits the table gives; the bits of `w` above them
are zero already, so the word is `w` itself. A number of more than 64 bits is no command word (R67). -/
def decodeTableWord (nbits w : Nat) : Option Instr :=
  if nbits ≤ 64 ∧ w < 2 ^ 64 then (decode (BitVec.ofNat 64 w)).command? else none

/-! ## Encoding (R69) -/

/-- `OP << 56 | A << 48 | X << 32 | Y << 16 | Z`. -/
def pack (op a : Byte) (x y z : Half) : Word :=
  op.setWidth 64 <<< 56 ||| a.setWidth 64 <<< 48 ||| x.setWidth 64 <<< 32
    ||| y.setWidth 64 <<< 16 ||| z.setWidth 64

/-- P as the low bit of field A. -/
def pairBit : Pair → Byte
  | .pair1 => 0
  | .pair2 => 1

/-- D as the low bit of field X. -/
def dirBit : Dir → Half
  | .cw => 0
  | .ccw => 1

/-- R69's enc, for well-formed commands the inverse of `decode`. -/
def encode : Instr → Word
  | .init => pack 0x01 0 0 0 0
  | .setch ch on off => pack 0x02 (BitVec.ofNat 8 ch) (BitVec.ofNat 16 on) (BitVec.ofNat 16 off) 0
  | .step p d => pack 0x03 (pairBit p) (dirBit d) 0 0
  | .servo deg => pack 0x04 0 (enc16 deg) 0 0
  | .stopall => pack 0x05 0 0 0 0
  | .setwin ch on off => pack 0x10 (BitVec.ofNat 8 ch) (BitVec.ofNat 16 on) (BitVec.ofNat 16 off) 0
  | .wrreg reg val => pack 0x11 (BitVec.ofNat 8 reg) (BitVec.ofNat 16 val) 0 0
  | .wrcmd val => pack 0x12 0 (BitVec.ofNat 16 val) 0 0
  | .rdreg reg => pack 0x13 (BitVec.ofNat 8 reg) 0 0 0

end Sys2Proof
end

