-- ==== Sys2Proof/Config.lean ====
section
/-! DEFINITION. The implementation parameters of spec/00_scope.md R6. Values the spec gives are
definitions. An OPEN parameter is an `opaque` constant whose type admits exactly the values that meet
its constraint, so nothing can be proved of it but that constraint. `Params` is the plain data the
machine computes with: the step takes the parameters as an argument (R6), carried in State, and a
statement over all states holds for every value of them. -/

namespace Sys2Proof

namespace Config

/-! ## Values R6 gives -/

/-- PWM channels of the chip (indices 0..15). -/
def N_CH : Nat := 16

/-- Width of a tick value. -/
def TICK_BITS : Nat := 12

/-- Ticks per PWM period. -/
def PERIOD_TICKS : Nat := 4096

/-- Chip internal clock used by the prescaler formula. -/
def CLK_HZ : Nat := 25000000

/-- The single operating frequency, in Hz. -/
def F_PWM : Nat := 50

/-- Settle delay in the frequency sequence, in microseconds. -/
def SETTLE_US : Nat := 5000

/-- Mode-register bit 4, set for sleep. -/
def MODE_SLEEP_BIT : Byte := 0x10

/-- Mode-register bit 7, cleared in the sleep variant. -/
def MODE_CLEAR_BIT : Byte := 0x80

/-- Mode-register bits 7 and 5, set in the final mode write. -/
def MODE_RESTART_BITS : Byte := 0xA0

/-- Pulse width at 0 degrees, in microseconds. -/
def SERVO_MIN_US : Int := 600

/-- Microseconds per degree. -/
def SERVO_US_PER_DEG : Int := 10

/-- PWM period used by the servo mapping, in microseconds. -/
def SERVO_PERIOD_US : Int := 20000

/-- Logical motor indices zeroed by STOPALL (1..4). -/
def N_MOTOR : Nat := 4

end Config

/-! ## The shapes of the OPEN parameters -/

/-- A PWM tick window (on, off), each a 12-bit value in 0..4095 (R6, spec/42_stepper.md R102). -/
structure Window where
  on : BitVec 12
  off : BitVec 12
deriving DecidableEq, Repr, Inhabited

/-- `PHASE_WIN`: one fixed window for each coil (R102). -/
structure PhaseTable where
  a : Window
  b : Window
  c : Window
  d : Window
deriving DecidableEq, Repr, Inhabited

/-- `PHASE_WIN(k)`. -/
def PhaseTable.win (t : PhaseTable) : Coil → Window
  | .A => t.a
  | .B => t.b
  | .C => t.c
  | .D => t.d

/-- Where each coil stands in a group of four channels, counted from the group's lowest channel. -/
structure CoilMap where
  a : Fin 4
  b : Fin 4
  c : Fin 4
  d : Fin 4
deriving DecidableEq, Repr

/-- The place of coil k. -/
def CoilMap.pos (m : CoilMap) : Coil → Fin 4
  | .A => m.a
  | .B => m.b
  | .C => m.c
  | .D => m.d

/-- R101 (a): four coils on four channels, one each. -/
def CoilMap.bijective (m : CoilMap) : Bool :=
  m.a != m.b && m.a != m.c && m.a != m.d && m.b != m.c && m.b != m.d && m.c != m.d

/-- `PERM(s, ·)` for one selector s: one coil map for each direction. -/
structure PairPerm where
  cw : CoilMap
  ccw : CoilMap
deriving DecidableEq, Repr

/-- The coil map of a direction. -/
def PairPerm.map (p : PairPerm) : Dir → CoilMap
  | .cw => p.cw
  | .ccw => p.ccw

/-- R101 (b): reversing the direction moves every coil to another channel. -/
def PairPerm.reverses (p : PairPerm) : Bool :=
  p.cw.a != p.ccw.a && p.cw.b != p.ccw.b && p.cw.c != p.ccw.c && p.cw.d != p.ccw.d

/-- The constraint of R101 on one selector's table. R101 (c) holds by construction: the windows do
not depend on the direction. -/
def PairPerm.legal (p : PairPerm) : Bool := p.cw.bijective && p.ccw.bijective && p.reverses

/-- `GROUP`: which selector drives {4,5,6,7} and which {0,1,2,3} (spec/42_stepper.md R106). -/
inductive GroupOrder where
  /-- Pair1 → {4,5,6,7}, Pair2 → {0,1,2,3}: the default of R106 and D14. -/
  | pair1High
  /-- Pair1 → {0,1,2,3}, Pair2 → {4,5,6,7}: the other reading of the source's word order. -/
  | pair1Low
deriving DecidableEq, Repr

/-- The parameters an instance of the block fixes (R6, spec/10_state.md R31). Bounds that are facts
about one parameter stand in its type: DEV_ADDR in 0..127, REG_MODE and REG_PRESCALE in 0..255,
REG_BASE in 0..192 (spec/20_memory.md R42), PEN_CH in 0..15. -/
structure Params where
  devAddr : BitVec 7
  regMode : Byte
  regPrescale : Byte
  regBase : Fin 193
  penCh : Fin 16
  phaseWin : PhaseTable
  group : GroupOrder
  perm1 : PairPerm
  perm2 : PairPerm
deriving DecidableEq, Repr

/-- The parameter constraint the types do not carry: both `PERM` tables meet R101. -/
def Params.legal (p : Params) : Bool := p.perm1.legal && p.perm2.legal

/-- The parameters meet every constraint of R6. -/
abbrev Params.WellFormed (p : Params) : Prop := p.legal = true

/-! ## The OPEN parameters of this instance of the block -/

/-- A `PERM` table of one selector together with R101's constraint. The field values written here
only show Lean that such a table exists; `Config.PERM` below is opaque and is not this table. -/
structure LegalPerm where
  table : PairPerm := ⟨⟨0, 1, 2, 3⟩, ⟨1, 2, 3, 0⟩⟩
  legal : table.legal = true := by decide
deriving Inhabited, DecidableEq, Repr

namespace Config

/-- DEV_ADDR, OPEN in 0..127. -/
opaque DEV_ADDR : BitVec 7

/-- REG_MODE, OPEN in 0..255. -/
opaque REG_MODE : Byte

/-- REG_PRESCALE, OPEN in 0..255. -/
opaque REG_PRESCALE : Byte

/-- REG_BASE, OPEN in 0..192. -/
opaque REG_BASE : Fin 193

/-- PEN_CH, OPEN in 0..15. -/
opaque PEN_CH : Fin 16

/-- PHASE_WIN, OPEN: every tick value in 0..4095. -/
opaque PHASE_WIN : Coil → Window

/-- PERM, OPEN under the constraint of R101. -/
opaque PERM : Pair → LegalPerm

/-- GROUP: the default of R106. -/
def GROUP : GroupOrder := .pair1High

/-- The parameters of this instance, as the plain data State carries. -/
def params : Params :=
  { devAddr := DEV_ADDR
    regMode := REG_MODE
    regPrescale := REG_PRESCALE
    regBase := REG_BASE
    penCh := PEN_CH
    phaseWin := ⟨PHASE_WIN .A, PHASE_WIN .B, PHASE_WIN .C, PHASE_WIN .D⟩
    group := GROUP
    perm1 := (PERM .pair1).table
    perm2 := (PERM .pair2).table }

/-- The free value of a bus read: the byte the bus answers to the n-th read for which no answer is
listed in State. R27 puts it under no law. -/
opaque busByte : Nat → Byte

end Config

end Sys2Proof
end

