-- ==== Sys2Proof/Machine/State.lean ====
section
/-! DEFINITION. The state of the block as plain data (spec/10_state.md R20 to R35), the reasons a step
can stop, and the state after reset (R33, spec/70_reset_and_hazards.md R140). -/

namespace Sys2Proof.Machine

/-- The response status (spec/60_exceptions.md R122). -/
inductive Status where
  | ok
  | illegal
deriving DecidableEq, Repr

/-- R122's numeric code of a status. -/
def Status.code : Status → Nat
  | .ok => 0
  | .illegal => 1

/-- One response `(status, data)` (R25). -/
structure Response where
  status : Status
  data : Byte
deriving DecidableEq, Repr

/-- One event of the bus and delay port (R26). -/
inductive Event where
  /-- `W(a, bytes)`: a bus write of 1 to 5 bytes to the 7-bit device address a. -/
  | W (a : BitVec 7) (bytes : List Byte)
  /-- `WR(a, r, d)`: a bus write of the register pointer r, then a read of the byte d. -/
  | WR (a : BitVec 7) (r d : Byte)
  /-- `DLY(n)`: a request to block for n microseconds. -/
  | DLY (n : Nat)
deriving DecidableEq, Repr

/-- One primitive of spec/00_scope.md R10, as the rules' pseudocode uses it. -/
inductive Op where
  /-- `BusWrite(bytes)`. -/
  | busWrite (bytes : List Byte)
  /-- `BusWrite([reg, (d & keep) | set])`, where d is the byte the command's read returned (R93). -/
  | busWriteOld (reg keep set : Byte)
  /-- `d <- BusWriteRead(reg)`. -/
  | busRead (reg : Byte)
  /-- `Delay(us)`. -/
  | delay (us : Nat)
  /-- `initFlag <- true`. -/
  | setInitFlag
  /-- `Respond(status, data)`. -/
  | respond (st : Status) (data : Byte)
  /-- `Respond(OK, d)`, where d is the byte the command's read returned (R84). -/
  | respondRead
deriving DecidableEq, Repr

/-- `phase` (R23). -/
inductive Phase where
  /-- `Idle`. -/
  | idle
  /-- `Busy(c, i)`: the accepted word c and the number i of events it has emitted. `todo` is the place in
  c's pseudocode: the primitives c still has to perform. R23's pair alone does not fix it. -/
  | busy (c : Word) (i : Nat) (todo : List Op)
deriving DecidableEq, Repr

/-- What the world outside does to the block of its own accord (spec/60_exceptions.md R135). -/
inductive EnvInput where
  /-- The bus answer or the delay completion is not there yet: nothing happens in this step (R28). -/
  | wait
  /-- The reset input is asserted (spec/70_reset_and_hazards.md R140). -/
  | reset
deriving DecidableEq, Repr

/-- What the block did between two resets: R141's history, one entry for each reset marker. -/
structure Epoch where
  log : List Event
  responses : List Response
deriving DecidableEq, Repr

/-- The block and its ports. -/
structure State where
  /-- The parameters of R6: configuration, fixed for the run. No step changes them (R31). -/
  params : Params
  /-- The Initialization Flag (R22). -/
  initFlag : Bool
  /-- Idle or Busy (R23). -/
  phase : Phase
  /-- The byte the read of the command in flight returned (`old` of R93, `d` of R84). It lives from the
  read to the command's response and is 0 otherwise. -/
  readData : Byte
  /-- The words the host presents at the command port, the next one first (R24). -/
  port : List Word
  /-- The responses given since reset, oldest first (R25). -/
  responses : List Response
  /-- The event log since reset, oldest first (R26). -/
  log : List Event
  /-- What was done before each earlier reset, oldest first (R141). -/
  history : List Epoch
  /-- The bytes the bus will answer to the next reads (R27, R135). A read that finds none listed takes
  the free value `Config.busByte`. -/
  busAnswers : List Byte
  /-- How many reads have been answered: the argument of the next free value. The model's own field. -/
  draws : Nat
  /-- When the world outside acts: each entry says after how many more moves of the block its input
  comes, counted from the entry before it. The model's own field. -/
  schedule : List (Nat × EnvInput)
deriving DecidableEq, Repr

/-- Why the machine stops. -/
inductive Fault where
  /-- Raised by `step` on a state that is Busy with no primitive left to perform and no response given.
  Every command ends in a response, so no run reaches such a state. Safe: the machine stops where the
  spec describes no state. -/
  | lostCommand
deriving DecidableEq, Repr

/-- Why an instruction has no meaning. -/
inductive Refusal where
  /-- Raised by an arm of `exec` whose instruction has no meaning yet. No arm raises it. Safe. -/
  | notModelled (mnemonic : String)
deriving DecidableEq, Repr

/-- The block right after reset (R33, R140), with nothing at its ports. -/
def State.reset : State :=
  { params := Config.params
    initFlag := false
    phase := .idle
    readData := 0
    port := []
    responses := []
    log := []
    history := []
    busAnswers := []
    draws := 0
    schedule := [] }

end Sys2Proof.Machine
end

