-- ==== Sys2Proof/Machine/Operands.lean ====
section
/-! DEFINITION. The values the rules compute from operands and parameters: the byte functions of
spec/00_scope.md R8 and R9, the channel registers of spec/20_memory.md R42, the phase table of
spec/42_stepper.md R101 to R106 and the servo mapping of spec/43_servo.md R111. -/

namespace Sys2Proof.Machine

/-! ## Integers and bytes (R8, R9) -/

/-- `floor_div(a, b)`: rounds toward minus infinity (R8). -/
def floorDiv (a b : Int) : Int := Int.fdiv a b

/-- `lo8(v) = v mod 256`. -/
def lo8 (v : Int) : Byte := BitVec.ofInt 8 v

/-- `trunc8(v) = v mod 256`: the same function, named for its use on register values. -/
def trunc8 (v : Int) : Byte := lo8 v

/-- `tlo(v) = enc16(v)[7:0]`, sent first (R43). -/
def tlo (v : Int) : Byte := (enc16 v).extractLsb' 0 8

/-- `thi(v) = enc16(v)[15:8]`. -/
def thi (v : Int) : Byte := (enc16 v).extractLsb' 8 8

/-! ## Channel registers (R42) -/

/-- `REG_BASE + 4*ch`, the offset of channel ch's first register. -/
def channelReg (p : Params) (ch : Nat) : Byte := BitVec.ofNat 8 (p.regBase.val + 4 * ch)

/-! ## The phase table (R101, R102, R106) -/

/-- The four coils in the order STEP writes them (R100, decision D12). -/
def coils : List Coil := [.A, .B, .C, .D]

/-- The lowest channel of `GROUP(s)` (R106). -/
def groupBase (p : Params) (s : Pair) : Nat :=
  match p.group, s with
  | .pair1High, .pair1 => 4
  | .pair1High, .pair2 => 0
  | .pair1Low, .pair1 => 0
  | .pair1Low, .pair2 => 4

/-- `GROUP(s)`: the channel set of stepper pair s. -/
def groupChannels (p : Params) (s : Pair) : List Nat :=
  [groupBase p s, groupBase p s + 1, groupBase p s + 2, groupBase p s + 3]

/-- The `PERM` table of selector s. -/
def permTable (p : Params) : Pair → PairPerm
  | .pair1 => p.perm1
  | .pair2 => p.perm2

/-- `PERM(s, d)(k)`: the channel of coil k (R101). -/
def permChannel (p : Params) (s : Pair) (d : Dir) (k : Coil) : Nat :=
  groupBase p s + (((permTable p s).map d).pos k).val

/-- The on-tick of `PHASE_WIN(k)`. -/
def phaseOn (p : Params) (k : Coil) : Int := ((p.phaseWin.win k).on.toNat : Int)

/-- The off-tick of `PHASE_WIN(k)`. -/
def phaseOff (p : Params) (k : Coil) : Int := ((p.phaseWin.win k).off.toNat : Int)

/-! ## Motor channels (R105) -/

/-- The logical motor indices, in the order STOPALL zeroes them (R104). -/
def motorIndices : List Nat := [1, 2, 3, 4]

/-- `motorCh(i) = ((4 - i)·2, (4 - i)·2 + 1)`. -/
def motorCh (i : Nat) : Nat × Nat := ((Config.N_MOTOR - i) * 2, (Config.N_MOTOR - i) * 2 + 1)

/-! ## The servo mapping (R111) -/

/-- `pulseUs(deg) = deg * SERVO_US_PER_DEG + SERVO_MIN_US`. -/
def pulseUs (deg : Int) : Int := deg * Config.SERVO_US_PER_DEG + Config.SERVO_MIN_US

/-- `ServoTick(deg) = floor_div(pulseUs(deg) * 4096, SERVO_PERIOD_US)`; not clamped (R113). -/
def servoTick (deg : Int) : Int :=
  floorDiv (pulseUs deg * (Config.PERIOD_TICKS : Int)) Config.SERVO_PERIOD_US

end Sys2Proof.Machine
end

