-- ==== Sys2Proof/Machine/Ops.lean ====
section
/-! DEFINITION. The shared operations of the machine: the primitives of spec/00_scope.md R10, running a
command's primitives in order until its response or until an outside input lands inside it
(spec/20_memory.md R50), the codec procedures (spec/40_codec.md R81, R85 to R87), the block's one
exceptional condition (spec/60_exceptions.md R121), and reset (spec/70_reset_and_hazards.md R140,
R141).

The block has no memory (spec/20_memory.md R40) and no trap: nothing is saved on an illegal word and
there is nothing to return from (spec/60_exceptions.md R125, R126). After any response the block is
Idle; that is all a "return" amounts to. -/

namespace Sys2Proof.Machine

/-! ## Ports -/

/-- `phase` after one more event: i counts the events of the command in flight (R23). -/
def Phase.counted : Phase → Phase
  | .idle => .idle
  | .busy c i todo => .busy c (i + 1) todo

/-- `phase` with the place in the command's pseudocode set. -/
def Phase.at (todo : List Op) : Phase → Phase
  | .idle => .idle
  | .busy c i _ => .busy c i todo

/-- Append one event to the log (R26). Nothing else appends. -/
def State.emit (s : State) (e : Event) : State :=
  { s with log := s.log ++ [e], phase := s.phase.counted }

/-- The byte the bus answers to the next read: the one listed, else a free value (R27). -/
def State.busAnswer (s : State) : Byte :=
  match s.busAnswers with
  | b :: _ => b
  | [] => Config.busByte s.draws

/-- `Respond(status, data)`: the response, then `phase <- Idle` (R25). -/
def State.respond (s : State) (st : Status) (data : Byte) : State :=
  { s with responses := s.responses ++ [⟨st, data⟩], phase := .idle, readData := 0 }

/-- The effect of one primitive of R10. Every bus event carries DEV_ADDR (R26, R40). -/
def State.perform (s : State) : Op → State
  | .busWrite bytes => s.emit (.W s.params.devAddr bytes)
  | .busWriteOld reg keep set =>
    s.emit (.W s.params.devAddr [reg, (s.readData &&& keep) ||| set])
  | .busRead reg =>
    { s.emit (.WR s.params.devAddr reg s.busAnswer) with
      readData := s.busAnswer
      busAnswers := s.busAnswers.tail
      draws := s.draws + 1 }
  | .delay us => s.emit (.DLY us)
  | .setInitFlag => { s with initFlag := true }
  | .respond st data => s.respond st data
  | .respondRead => s.respond .ok s.readData

/-! ## Moves and outside inputs -/

/-- The outside inputs after n moves of the block, none of which met a due input. -/
def laterSchedule (n : Nat) : List (Nat × EnvInput) → List (Nat × EnvInput)
  | [] => []
  | (k, e) :: rest => (k - n, e) :: rest

/-- One move of the block passes: an acceptance, a primitive, or a wait at the command port. -/
def State.tick (s : State) : State := { s with schedule := laterSchedule 1 s.schedule }

/-- An outside input is due before the block's next move. -/
def State.inputDue (s : State) : Bool :=
  match s.schedule with
  | (0, _) :: _ => true
  | _ => false

/-- No outside input comes before the block has made n more moves. -/
def State.quietFor (s : State) (n : Nat) : Prop :=
  match s.schedule with
  | [] => True
  | (k, _) :: _ => n ≤ k

/-- Perform the primitives in order. Where an outside input is due, the run stops with the block Busy
at that place; otherwise each primitive is complete before the next begins (R50). -/
def runOps : List Op → State → State
  | [], s => { s with phase := s.phase.at [] }
  | op :: rest, s =>
    if s.inputDue then { s with phase := s.phase.at (op :: rest) }
    else runOps rest (s.tick.perform op)

/-! ## Pseudocode -/

/-- A piece of pseudocode: from `initFlag` where it starts, the primitives it performs and `initFlag`
where it ends. Commands do not overlap (R23), so nothing else changes the flag meanwhile. -/
abbrev Proc := Bool → List Op × Bool

/-- Primitives that do not depend on the flag and do not change it. -/
def Proc.ops (l : List Op) : Proc := fun f => (l, f)

/-- One piece after the other. -/
def Proc.andThen (a b : Proc) : Proc := fun f =>
  ((a f).1 ++ (b (a f).2).1, (b (a f).2).2)

/-- Several pieces, in order. -/
def Proc.inOrder : List Proc → Proc
  | [] => Proc.ops []
  | a :: rest => a.andThen (Proc.inOrder rest)

/-- `Respond(OK, 0x00)`. -/
def respondOk : Proc := Proc.ops [.respond .ok 0x00]

/-- Run a command's pseudocode from its start, `initFlag` being what the state holds. -/
def runCommand (pr : Proc) (s : State) : Host.Outcome State Fault Refusal :=
  .next (runOps (pr s.initFlag).1 s)

/-! ## The codec procedures (R81, R85 to R87) -/

/-- `Win(ch, on, off)` (R81): one T-WIN for a channel in 0..15, no event for any other. -/
def win (p : Params) (ch on off : Int) : Proc :=
  if ch < 0 ∨ ch > 15 then Proc.ops []
  else Proc.ops [.busWrite [channelReg p ch.toNat, tlo on, thi on, tlo off, thi off]]

/-- `RegWrite(reg, value)` (R85). -/
def regWrite (reg : Byte) (value : Int) : Proc := Proc.ops [.busWrite [reg, trunc8 value]]

/-- `CmdWrite(value)` (R87). -/
def cmdWrite (value : Int) : Proc := Proc.ops [.busWrite [trunc8 value]]

/-- `RegRead(reg)` (R86): the byte it returns is `readData` for the rest of the command. -/
def regRead (reg : Byte) : Proc := Proc.ops [.busRead reg]

/-- `RegWrite(reg, (old & keep) | set)`, old being the byte RegRead returned (R93). It is a byte, so
trunc8 leaves it. -/
def regWriteOld (reg keep set : Byte) : Proc := Proc.ops [.busWriteOld reg keep set]

/-! ## Acceptance, the illegal word, reset -/

/-- The command port takes the word: `phase <- Busy(word, 0)` (R24). It is one move of the block. -/
def State.accept (s : State) (w : Word) (rest : List Word) : State :=
  { s.tick with phase := .busy w 0 [], port := rest }

/-- `raise IllegalCommand(w)` (R121): `Respond(ILLEGAL, 0x00)` and nothing else. -/
def raiseIllegal (s : State) : State := runOps [.respond .illegal 0x00] s

/-- Reset (R140, R141): every piece of the block's state takes R33's value, a command in flight is
aborted without a response, and what was done so far goes into the history. The parameters stay
(R33), and so does what the world outside holds: the words waiting at the port (R141), the bytes the
bus will answer, and the inputs still to come. -/
def State.applyReset (s : State) : State :=
  { s with
    initFlag := false
    phase := .idle
    readData := 0
    responses := []
    log := []
    history := s.history ++ [⟨s.log, s.responses⟩] }

/-- The world outside makes the move that is due. -/
def State.takeInput (s : State) (e : EnvInput) (rest : List (Nat × EnvInput)) : State :=
  match e with
  | .wait => { s with schedule := rest }
  | .reset => { s with schedule := rest }.applyReset

end Sys2Proof.Machine
end

