-- ==== Sys2Proof/Machine/Codec.lean ====
section
/-! DEFINITION. The raw codec commands SETWIN, WRREG, WRCMD and RDREG (spec/40_codec.md R80 to R84).
None of them reads or writes the Initialization Flag. -/

namespace Sys2Proof.Machine

/-- SETWIN's pseudocode (R80). -/
def setwinProc (p : Params) (ch on off : Nat) : Proc := (win p ch on off).andThen respondOk

/-- SETWIN (R80). -/
def execSetwin (ch on off : Nat) (s : State) : Host.Outcome State Fault Refusal :=
  runCommand (setwinProc s.params ch on off) s

/-- WRREG's pseudocode (R82). -/
def wrregProc (reg val : Nat) : Proc := (regWrite (BitVec.ofNat 8 reg) val).andThen respondOk

/-- WRREG (R82). -/
def execWrreg (reg val : Nat) (s : State) : Host.Outcome State Fault Refusal :=
  runCommand (wrregProc reg val) s

/-- WRCMD's pseudocode (R83). -/
def wrcmdProc (val : Nat) : Proc := (cmdWrite val).andThen respondOk

/-- WRCMD (R83). -/
def execWrcmd (val : Nat) (s : State) : Host.Outcome State Fault Refusal :=
  runCommand (wrcmdProc val) s

/-- RDREG's pseudocode (R84): the response carries the byte read. -/
def rdregProc (reg : Nat) : Proc :=
  (regRead (BitVec.ofNat 8 reg)).andThen (Proc.ops [.respondRead])

/-- RDREG (R84). -/
def execRdreg (reg : Nat) (s : State) : Host.Outcome State Fault Refusal :=
  runCommand (rdregProc reg) s

end Sys2Proof.Machine
end

