-- ==== Sys2Proof/Machine/Flags.lean ====
section
/-! DEFINITION. The block's one flag, the Initialization Flag, and the procedures that read and set it
(spec/41_pwm_driver.md R91 to R96; spec/10_state.md R22, R34). No command has another flag. -/

namespace Sys2Proof.Machine

/-- `Prescale(f) = floor_div(CLK_HZ, 4096 * f) - 1` (R92). -/
def prescale (f : Nat) : Int :=
  floorDiv (Config.CLK_HZ : Int) ((Config.PERIOD_TICKS : Int) * (f : Int)) - 1

/-- `SetFrequency(f)` (R93), in its normative order: read the mode register, write the sleep variant,
the prescaler and the original byte, wait for the settle delay, write the restart byte. -/
def setFrequency (p : Params) (f : Nat) : Proc :=
  Proc.inOrder
    [ regRead p.regMode,
      regWriteOld p.regMode (~~~Config.MODE_CLEAR_BIT) Config.MODE_SLEEP_BIT,
      regWrite p.regPrescale (prescale f),
      regWriteOld p.regMode 0xFF 0x00,
      Proc.ops [.delay Config.SETTLE_US],
      regWriteOld p.regMode 0xFF Config.MODE_RESTART_BITS ]

/-- `initFlag <- true`. -/
def setInitFlag : Proc := fun _ => ([.setInitFlag], true)

/-- `EnsureInit()` (R91): nothing when the flag is set; otherwise the mode register is written to 0,
the frequency is set, and the flag is set after the last write. -/
def ensureInit (p : Params) : Proc := fun f =>
  if f then ([], f)
  else Proc.inOrder [regWrite p.regMode 0, setFrequency p Config.F_PWM, setInitFlag] f

/-- `Chan(ch, on, off)` (R95): EnsureInit comes before the channel range check. -/
def chan (p : Params) (ch on off : Int) : Proc := (ensureInit p).andThen (win p ch on off)

end Sys2Proof.Machine
end

