-- ==== Sys2Proof/Machine/Driver.lean ====
section
/-! DEFINITION. The PWM device driver commands INIT and SETCH (spec/41_pwm_driver.md R90, R94). -/

namespace Sys2Proof.Machine

/-- INIT's pseudocode (R90). -/
def initProc (p : Params) : Proc := (ensureInit p).andThen respondOk

/-- INIT (R90). -/
def execInit (s : State) : Host.Outcome State Fault Refusal :=
  runCommand (initProc s.params) s

/-- SETCH's pseudocode (R94). -/
def setchProc (p : Params) (ch on off : Nat) : Proc := (chan p ch on off).andThen respondOk

/-- SETCH (R94). -/
def execSetch (ch on off : Nat) (s : State) : Host.Outcome State Fault Refusal :=
  runCommand (setchProc s.params ch on off) s

end Sys2Proof.Machine
end

