-- ==== Sys2Proof/Machine/Servo.lean ====
section
/-! DEFINITION. The servo PWM mapper command SERVO (spec/43_servo.md R110). -/

namespace Sys2Proof.Machine

/-- SERVO's pseudocode (R110): on-tick 0, off-tick `ServoTick(DEG)`, which is not clamped (R113). -/
def servoProc (p : Params) (deg : Int) : Proc :=
  (chan p p.penCh.val 0 (servoTick deg)).andThen respondOk

/-- SERVO (R110). -/
def execServo (deg : Int) (s : State) : Host.Outcome State Fault Refusal :=
  runCommand (servoProc s.params deg) s

end Sys2Proof.Machine
end

