-- ==== Sys2Proof/Machine/Stepper.lean ====
section
/-! DEFINITION. The stepper phase sequencer commands STEP and STOPALL (spec/42_stepper.md R100, R104). -/

namespace Sys2Proof.Machine

/-- STEP's pseudocode (R100): the four coils in the order A, B, C, D. -/
def stepProc (p : Params) (s : Pair) (d : Dir) : Proc :=
  (Proc.inOrder (coils.map fun k =>
    chan p (permChannel p s d k) (phaseOn p k) (phaseOff p k))).andThen respondOk

/-- STEP (R100). -/
def execStep (p : Pair) (d : Dir) (s : State) : Host.Outcome State Fault Refusal :=
  runCommand (stepProc s.params p d) s

/-- STOPALL's pseudocode (R104): both channels of motors 1 to 4, the lower channel first. -/
def stopallProc (p : Params) : Proc :=
  (Proc.inOrder (motorIndices.map fun i =>
    (chan p (motorCh i).1 0 0).andThen (chan p (motorCh i).2 0 0))).andThen respondOk

/-- STOPALL (R104). -/
def execStopall (s : State) : Host.Outcome State Fault Refusal :=
  runCommand (stopallProc s.params) s

end Sys2Proof.Machine
end

