-- ==== Sys2Proof/Machine/Dispatch.lean ====
section
/-! DEFINITION. One arm for each command of the opcode map (spec/30_encoding.md R64). -/

namespace Sys2Proof.Machine

/-- The meaning of an accepted command, from its start to its response. -/
def exec (i : Instr) (s : State) : Host.Outcome State Fault Refusal :=
  match i with
  | .init => Sys2Proof.Machine.execInit s
  | .setch ch on off => Sys2Proof.Machine.execSetch ch on off s
  | .step p d => Sys2Proof.Machine.execStep p d s
  | .servo deg => Sys2Proof.Machine.execServo deg s
  | .stopall => Sys2Proof.Machine.execStopall s
  | .setwin ch on off => Sys2Proof.Machine.execSetwin ch on off s
  | .wrreg reg val => Sys2Proof.Machine.execWrreg reg val s
  | .wrcmd val => Sys2Proof.Machine.execWrcmd val s
  | .rdreg reg => Sys2Proof.Machine.execRdreg reg s

end Sys2Proof.Machine
end

