-- ==== Sys2Proof/Machine/Step.lean ====
section
/-! DEFINITION. One step of the block (spec/10_state.md R21 to R28). -/

namespace Sys2Proof.Machine

/-- One step. An outside input that is due comes first (spec/60_exceptions.md R124: reset takes priority
over everything). Otherwise a command in flight goes on from where it stands (R28); an Idle block
accepts the next word at its port and runs it (R24), or raises IllegalCommand where the word decodes
to none (R121); with no word at the port it waits (spec/70_reset_and_hazards.md R140). -/
def step (s : State) : Host.Outcome State Fault Refusal :=
  match s.schedule with
  | (0, e) :: rest => .next (s.takeInput e rest)
  | _ =>
    match s.phase with
    | .busy _ _ [] => .fault .lostCommand
    | .busy _ _ (op :: rest) => .next (runOps (op :: rest) s)
    | .idle =>
      match s.port with
      | [] => .next s.tick
      | w :: rest =>
        match decode w with
        | .command i => exec i (s.accept w rest)
        | .illegal _ => .next (raiseIllegal (s.accept w rest))

/-- The state with one more word at the head of the command port and nothing before it: the block Idle
and no outside input due. The port is where a command comes from (R24); the block fetches nothing
(R21). A command is one 64-bit word, so `nbits` adds nothing to it. -/
def State.withFetchWord (s : State) (_nbits w : Nat) : State :=
  { s with
    phase := .idle
    port := BitVec.ofNat 64 w :: s.port
    schedule := s.schedule.dropWhile fun x => x.1 == 0 }

end Sys2Proof.Machine
end

