-- ==== Sys2Proof/Machine/Asm.lean ====
section
/-! DEFINITION. The assembler of spec/30_encoding.md R68: one command on a line, a mnemonic followed by
comma-separated operands; numbers are decimal, or hexadecimal with 0x; a semicolon starts a comment.
An operand outside its range is an assembly error and is never wrapped. The block does not use this
file (spec/92_eei_decisions.md D31). -/

namespace Sys2Proof.Machine

/-- What one line assembles to. -/
inductive AsmResult where
  | blank
  | command (i : Instr)
  | error
deriving DecidableEq, Repr

/-- An operand as written: a number, a stepper pair or a direction. -/
inductive AsmOperand where
  | num (v : Int)
  | pair (p : Pair)
  | dir (d : Dir)
deriving DecidableEq, Repr

/-- White space between the words of a line. -/
def isBlank (c : Char) : Bool := c == ' ' || c == '\t' || c == '\r' || c == '\n'

/-- The line up to its comment. -/
def stripComment (l : List Char) : List Char := l.takeWhile fun c => c != ';'

/-- The text without white space at its two ends. -/
def trimBlank (l : List Char) : List Char :=
  ((l.dropWhile isBlank).reverse.dropWhile isBlank).reverse

/-- The pieces between commas. -/
def splitComma : List Char → List (List Char)
  | [] => [[]]
  | c :: cs =>
    match splitComma cs with
    | [] => [[c]]
    | t :: ts => if c == ',' then [] :: t :: ts else (c :: t) :: ts

/-- The value of a digit in the base. -/
def digitValue (base : Nat) (c : Char) : Option Nat :=
  let n := c.toNat
  let v :=
    if 48 ≤ n ∧ n ≤ 57 then n - 48
    else if 97 ≤ n ∧ n ≤ 102 then n - 87
    else if 65 ≤ n ∧ n ≤ 70 then n - 55
    else base
  if v < base then some v else none

/-- The value of a run of digits after those worth `acc`. -/
def digitsValue (base : Nat) : Nat → List Char → Option Nat
  | acc, [] => some acc
  | acc, c :: cs =>
    match digitValue base c with
    | some v => digitsValue base (acc * base + v) cs
    | none => none

/-- An unsigned number: decimal, or hexadecimal with 0x; at least one digit. -/
def parseNat : List Char → Option Nat
  | '0' :: 'x' :: c :: cs => digitsValue 16 0 (c :: cs)
  | c :: cs => digitsValue 10 0 (c :: cs)
  | [] => none

/-- A number with or without a minus sign. -/
def parseInt : List Char → Option Int
  | '-' :: cs => (parseNat cs).map fun n => -(n : Int)
  | cs => (parseNat cs).map fun n => (n : Int)

/-- One operand. -/
def parseOperand (l : List Char) : Option AsmOperand :=
  if l = "Pair1".toList then some (.pair .pair1)
  else if l = "Pair2".toList then some (.pair .pair2)
  else if l = "CW".toList then some (.dir .cw)
  else if l = "CCW".toList then some (.dir .ccw)
  else (parseInt l).map .num

/-- The operands of a line; no text means none. -/
def parseOperands (l : List Char) : Option (List AsmOperand) :=
  if l = [] then some [] else (splitComma l).mapM fun t => parseOperand (trimBlank t)

/-- The mnemonics of R64. -/
def parseMnemonic (l : List Char) : Option Mnemonic :=
  if l = "INIT".toList then some .INIT
  else if l = "SETCH".toList then some .SETCH
  else if l = "STEP".toList then some .STEP
  else if l = "SERVO".toList then some .SERVO
  else if l = "STOPALL".toList then some .STOPALL
  else if l = "SETWIN".toList then some .SETWIN
  else if l = "WRREG".toList then some .WRREG
  else if l = "WRCMD".toList then some .WRCMD
  else if l = "RDREG".toList then some .RDREG
  else none

/-- An unsigned operand: a negative number is out of its range. -/
def unsignedOperand (v : Int) : Option Nat := if 0 ≤ v then some v.toNat else none

/-- The operand list of R68 for each mnemonic, ranges not yet checked. -/
def buildCommand : Mnemonic → List AsmOperand → Option Instr
  | .INIT, [] => some .init
  | .SETCH, [.num ch, .num on, .num off] => do
    some (.setch (← unsignedOperand ch) (← unsignedOperand on) (← unsignedOperand off))
  | .STEP, [.pair p, .dir d] => some (.step p d)
  | .SERVO, [.num deg] => some (.servo deg)
  | .STOPALL, [] => some .stopall
  | .SETWIN, [.num ch, .num on, .num off] => do
    some (.setwin (← unsignedOperand ch) (← unsignedOperand on) (← unsignedOperand off))
  | .WRREG, [.num reg, .num val] => do
    some (.wrreg (← unsignedOperand reg) (← unsignedOperand val))
  | .WRCMD, [.num val] => do some (.wrcmd (← unsignedOperand val))
  | .RDREG, [.num reg] => do some (.rdreg (← unsignedOperand reg))
  | _, _ => none

/-- The command of a mnemonic and its operands, an error where an operand is out of its range. -/
def assembleParts (m : Mnemonic) (ops : List AsmOperand) : AsmResult :=
  match buildCommand m ops with
  | some i => if i.wellFormed then .command i else .error
  | none => .error

/-- One line of assembler text (R68). -/
def assembleLine (line : List Char) : AsmResult :=
  let text := trimBlank (stripComment line)
  if text = [] then .blank
  else
    match parseMnemonic (text.takeWhile fun c => !isBlank c),
      parseOperands (trimBlank (text.dropWhile fun c => !isBlank c)) with
    | some m, some ops => assembleParts m ops
    | _, _ => .error

end Sys2Proof.Machine
end

