-- ==== Sys2Proof/Machine/Facade.lean ====
section
/-! DEFINITION. The host's pseudo-instructions, spec/30_encoding.md R70 and R75 to R79: the Motion Facade
operations as sequences of block commands and host holds. The block sees only the commands; a hold is
no command and emits no event. Hold durations are the host's exact arithmetic in milliseconds; how a
fraction becomes a delay argument is not stated (spec/91_not_in_source.md N12). -/

namespace Sys2Proof.Machine

/-- One act of the host: a command to the block, or `HOLD ms`. -/
inductive HostAction where
  | command (i : Instr)
  | hold (ms : Rat)
deriving DecidableEq, Repr

/-- The words the host sends for a sequence: the commands, without the holds. -/
def hostWords (l : List HostAction) : List Word :=
  l.filterMap fun
    | .command i => some (encode i)
    | .hold _ => none

/-- `spinWheels(dir, ms)` (R75): the two pairs turn in opposite directions. -/
def spinWheels (dir : Dir) (ms : Rat) : List HostAction :=
  [ .command (.step .pair1 dir), .command (.step .pair2 dir.opp), .hold ms, .command .stopall ]

/-- `turnWheels(dir, ms)` (R76): both pairs turn in the same direction. -/
def turnWheels (dir : Dir) (ms : Rat) : List HostAction :=
  [ .command (.step .pair1 dir), .command (.step .pair2 dir), .hold ms, .command .stopall ]

/-- The direction argument of `moveDistance`. -/
inductive Travel where
  | forward
  | backward
deriving DecidableEq, Repr

/-- R77's map: Forward is CCW, Backward is CW. -/
def Travel.dir : Travel → Dir
  | .forward => .ccw
  | .backward => .cw

/-- `ms = cm / 15.2 * 3000` (R77). -/
def moveMs (cm : Rat) : Rat := cm / (152 / 10) * 3000

/-- `moveDistance(dir, cm)` (R77). -/
def moveDistance (dir : Travel) (cm : Rat) : List HostAction := spinWheels dir.dir (moveMs cm)

/-- The direction argument of `turnAngle`. -/
inductive Turn where
  | left
  | right
deriving DecidableEq, Repr

/-- `ms = deg / 692 * 10000` (R78). -/
def turnMs (deg : Rat) : Rat := deg / 692 * 10000

/-- `turnAngle(dir, deg)` (R78). `turnDir` is the OPEN host parameter TURN_DIR. -/
def turnAngle (turnDir : Turn → Dir) (dir : Turn) (deg : Rat) : List HostAction :=
  turnWheels (turnDir dir) (turnMs deg)

/-- The argument of `setPen`. -/
inductive PenPosition where
  | down
  | up
  | out
deriving DecidableEq, Repr

/-- `setPen(position)` (R79). No hold is written after Out's final SERVO 80 (N13). -/
def setPen : PenPosition → List HostAction
  | .down => [.command (.servo 155), .hold 500]
  | .up => [.command (.servo 80), .hold 500]
  | .out => [.command (.servo 30), .hold 2000, .command (.servo 80)]

end Sys2Proof.Machine
end

