-- ==== Sys2Proof/Machine/Observe.lean ====
section
/-! DEFINITION. Observations of a run that are not state of the block: `lastWin` (spec/10_state.md R35),
the history across resets (spec/70_reset_and_hazards.md R141), and the events one primitive gives. -/

namespace Sys2Proof.Machine

/-- The window an event writes to channel c: `W(DEV_ADDR, [REG_BASE + 4c, b1, b2, b3, b4])` gives
`(b1 + 256·b2, b3 + 256·b4)` (R35). -/
def Event.windowOn (p : Params) (c : Nat) : Event → Option (Nat × Nat)
  | .W a [r, b1, b2, b3, b4] =>
    if a = p.devAddr ∧ r = channelReg p c then
      some (b1.toNat + 256 * b2.toNat, b3.toNat + 256 * b4.toNat)
    else none
  | _ => none

/-- `lastWin(log, c)` (R35): the window the last such event of the log gives, none if there is none. -/
def lastWin (p : Params) (log : List Event) (c : Nat) : Option (Nat × Nat) :=
  (log.filterMap (Event.windowOn p c)).getLast?

/-- One entry of a history that is observed across resets (R141). -/
inductive TraceItem where
  | event (e : Event)
  | resetMark
deriving DecidableEq, Repr

/-- Everything the block has done: the events before each reset, that reset's marker, and the events
since the last one. -/
def State.trace (s : State) : List TraceItem :=
  (s.history.flatMap fun e => e.log.map .event ++ [.resetMark]) ++ s.log.map .event

/-- The event a primitive appends (R26), `d` being the byte the command's read returns. -/
def Op.event (p : Params) (d : Byte) : Op → Option Event
  | .busWrite bytes => some (.W p.devAddr bytes)
  | .busWriteOld reg keep set => some (.W p.devAddr [reg, (d &&& keep) ||| set])
  | .busRead reg => some (.WR p.devAddr reg d)
  | .delay us => some (.DLY us)
  | .setInitFlag => none
  | .respond _ _ => none
  | .respondRead => none

/-- A primitive that reads a byte from the bus. -/
def Op.isRead : Op → Bool
  | .busRead _ => true
  | _ => false

/-- A delay request. -/
def Event.isDelay : Event → Bool
  | .DLY _ => true
  | _ => false

/-- The events of a list of primitives, in order. -/
def opEvents (p : Params) (d : Byte) (l : List Op) : List Event := l.filterMap (Op.event p d)

end Sys2Proof.Machine
end

