-- ==== Sys2Proof/Safety.lean ====
section
/-! DEFINITION. The words claims are made in: the event sequences the rules give, the state a completed
command leaves, a safe run, and the invariant every step keeps. -/

namespace Sys2Proof.Machine

/-! ## What the rules say a command emits -/

/-- The initialization sequence of spec/41_pwm_driver.md R96, the bus answering b to event 2. -/
def initSeq (p : Params) (b : Byte) : List Event :=
  [ .W p.devAddr [p.regMode, 0x00],
    .WR p.devAddr p.regMode b,
    .W p.devAddr [p.regMode, (b &&& 0x7F) ||| 0x10],
    .W p.devAddr [p.regPrescale, 0x79],
    .W p.devAddr [p.regMode, b],
    .DLY 5000,
    .W p.devAddr [p.regMode, b ||| 0xA0] ]

/-- The events EnsureInit emits in a state (R91, R96): none on a Running block. -/
def initEvents (s : State) : List Event :=
  if s.initFlag then [] else initSeq s.params s.busAnswer

/-- The moves EnsureInit takes: seven events and the write of the flag, or none. -/
def initMoves (s : State) : Nat := if s.initFlag then 0 else 8

/-- The reads EnsureInit makes. -/
def initReads (s : State) : Nat := if s.initFlag then 0 else 1

/-- The T-WIN event of spec/20_memory.md R44 for channel c, the ticks given as integers: the first byte
is REG_BASE + 4c, and each tick is sent low byte first, taken modulo 65536 (spec/00_scope.md R9). -/
def windowWrite (p : Params) (c : Nat) (on off : Int) : Event :=
  .W p.devAddr
    [ BitVec.ofNat 8 (p.regBase.val + 4 * c),
      BitVec.ofInt 8 (on % 256), BitVec.ofInt 8 (on / 256 % 256),
      BitVec.ofInt 8 (off % 256), BitVec.ofInt 8 (off / 256 % 256) ]

/-- The window event of SETCH and SETWIN: one for a channel in 0..15, none for any other
(spec/40_codec.md R81). -/
def windowEvents (p : Params) (ch on off : Nat) : List Event :=
  if ch ≤ 15 then [windowWrite p ch on off] else []

/-! ## What the rules say a command performs -/

/-- EnsureInit's primitives on an Uninitialized block, from R91 to R93 with F_PWM = 50 and prescaler 121:
the old mode byte with bit 7 cleared and bit 4 set, the old byte itself, and the old byte with bits 7
and 5 set are the second, third and last write of the mode register after the read. -/
def initOps (p : Params) : List Op :=
  [ .busWrite [p.regMode, 0x00],
    .busRead p.regMode,
    .busWriteOld p.regMode 0x7F 0x10,
    .busWrite [p.regPrescale, 0x79],
    .busWriteOld p.regMode 0xFF 0x00,
    .delay 5000,
    .busWriteOld p.regMode 0xFF 0xA0,
    .setInitFlag ]

/-- `Win`'s primitives (spec/40_codec.md R81), the bytes as R44 and R9 give them. -/
def windowOps (p : Params) (c : Nat) (on off : Int) : List Op :=
  if c ≤ 15 then
    [ .busWrite
        [ BitVec.ofNat 8 (p.regBase.val + 4 * c),
          BitVec.ofInt 8 (on % 256), BitVec.ofInt 8 (on / 256 % 256),
          BitVec.ofInt 8 (off % 256), BitVec.ofInt 8 (off / 256 % 256) ] ]
  else []

/-- The primitives of each command's rule, in order, `flag` being initFlag where the command starts:
R90, R94, R100, R110, R104, R80, R82, R83, R84. They are written out here and use no procedure of the
machine. -/
def ruleOps (p : Params) (flag : Bool) : Instr → List Op
  | .init => start ++ [.respond .ok 0x00]
  | .setch ch on off => start ++ windowOps p ch on off ++ [.respond .ok 0x00]
  | .step q d =>
    start
      ++ windowOps p (permChannel p q d .A) p.phaseWin.a.on.toNat p.phaseWin.a.off.toNat
      ++ windowOps p (permChannel p q d .B) p.phaseWin.b.on.toNat p.phaseWin.b.off.toNat
      ++ windowOps p (permChannel p q d .C) p.phaseWin.c.on.toNat p.phaseWin.c.off.toNat
      ++ windowOps p (permChannel p q d .D) p.phaseWin.d.on.toNat p.phaseWin.d.off.toNat
      ++ [.respond .ok 0x00]
  | .servo deg =>
    start ++ windowOps p p.penCh.val 0 ((10 * deg + 600) * 4096 / 20000) ++ [.respond .ok 0x00]
  | .stopall =>
    start
      ++ windowOps p 6 0 0 ++ windowOps p 7 0 0 ++ windowOps p 4 0 0 ++ windowOps p 5 0 0
      ++ windowOps p 2 0 0 ++ windowOps p 3 0 0 ++ windowOps p 0 0 0 ++ windowOps p 1 0 0
      ++ [.respond .ok 0x00]
  | .setwin ch on off => windowOps p ch on off ++ [.respond .ok 0x00]
  | .wrreg reg val =>
    [.busWrite [BitVec.ofNat 8 reg, BitVec.ofNat 8 (val % 256)], .respond .ok 0x00]
  | .wrcmd val => [.busWrite [BitVec.ofNat 8 (val % 256)], .respond .ok 0x00]
  | .rdreg reg => [.busRead (BitVec.ofNat 8 reg), .respondRead]
where
  /-- EnsureInit: nothing on a Running block (R91). -/
  start : List Op := if flag then [] else initOps p

/-- The commands that call EnsureInit: INIT, SETCH, STEP, SERVO and STOPALL (R22). The raw codec commands
do not. -/
def initializes : Instr → Bool
  | .init => true
  | .setch _ _ _ => true
  | .step _ _ => true
  | .servo _ => true
  | .stopall => true
  | .setwin _ _ _ => false
  | .wrreg _ _ => false
  | .wrcmd _ => false
  | .rdreg _ => false

/-- The word a step works on: the one in flight, or the next one at the port of an Idle block. -/
def State.current (s : State) : Option Word :=
  match s.phase with
  | .busy c _ _ => some c
  | .idle => s.port.head?

/-- The schedule with an entry `(n, wait)` at its head taken out: what comes after it comes n moves
later than it says. -/
def scheduleAfter (n : Nat) : List (Nat × EnvInput) → List (Nat × EnvInput)
  | [] => []
  | (k, e) :: rest => (n + k, e) :: rest

/-! ## What a completed command leaves -/

/-- `s` after a command that emitted `evs`, made `moves` moves and `reads` bus reads and gave the
response `r`: every field the command writes, and nothing else. -/
def State.completed (s : State) (evs : List Event) (flag : Bool) (r : Response)
    (moves reads : Nat) : State :=
  { s with
    initFlag := flag
    phase := .idle
    readData := 0
    responses := s.responses ++ [r]
    log := s.log ++ evs
    busAnswers := s.busAnswers.drop reads
    draws := s.draws + reads
    schedule := laterSchedule moves s.schedule }

/-! ## Safe runs -/

/-- A response ILLEGAL is the one exceptional condition (spec/60_exceptions.md R120, R121). It stays in
the responses since reset, and in the history of earlier resets. -/
def State.noIllegal (s : State) : Bool :=
  s.responses.all (fun r => r.status == .ok)
    && s.history.all fun e => e.responses.all fun r => r.status == .ok

/-- The step goes on: neither a fault nor a refusal. -/
def answersNext (o : Host.Outcome State Fault Refusal) : Prop := ∃ t, o = .next t

/-- The transaction formats of spec/20_memory.md R44 and R45 and the one delay of R51: every event goes
to DEV_ADDR; a write has one byte (T-CMD), two (T-REG), or five of which the first is REG_BASE + 4c
for a channel c in 0..15 (T-WIN). -/
def Event.hasFormat (p : Params) : Event → Prop
  | .W a bytes =>
    a = p.devAddr ∧
      (bytes.length = 1 ∨ bytes.length = 2 ∨
        (bytes.length = 5 ∧ ∃ c ≤ 15, bytes.head? = some (BitVec.ofNat 8 (p.regBase.val + 4 * c))))
  | .WR a _ _ => a = p.devAddr
  | .DLY n => n = 5000

/-! ## The invariant -/

/-- The pseudocode of each command. -/
def commandProc (p : Params) : Instr → Proc
  | .init => initProc p
  | .setch ch on off => setchProc p ch on off
  | .step s d => stepProc p s d
  | .servo deg => servoProc p deg
  | .stopall => stopallProc p
  | .setwin ch on off => setwinProc p ch on off
  | .wrreg reg val => wrregProc reg val
  | .wrcmd val => wrcmdProc val
  | .rdreg reg => rdregProc reg

/-- The pseudocode an accepted word runs: its command's, or IllegalCommand's (R121). -/
def wordProc (p : Params) (w : Word) : Proc :=
  match decode w with
  | .command i => commandProc p i
  | .illegal _ => Proc.ops [.respond .illegal 0x00]

/-- The response an accepted word is given (R25, R122), d being the byte its read returns. -/
def wordResponse (w : Word) (d : Byte) : Response :=
  match decode w with
  | .command (.rdreg _) => ⟨.ok, d⟩
  | .command _ => ⟨.ok, 0x00⟩
  | .illegal _ => ⟨.illegal, 0x00⟩

/-- What a run of whole commands since reset leaves: the flag, the log and the responses. Each word
adds the events of its own pseudocode, in order, and one response (R25, R50). -/
inductive Served (p : Params) : Bool → List Event → List Response → Prop where
  | atReset : Served p false [] []
  | word {f : Bool} {l : List Event} {rs : List Response} (w : Word) (d : Byte) :
      Served p f l rs →
      Served p (wordProc p w f).2 (l ++ opEvents p d (wordProc p w f).1) (rs ++ [wordResponse w d])

/-- The place of a command in flight: `done` is the part of its pseudocode that was performed. -/
structure InFlight (s : State) (c : Word) (i : Nat) (todo : List Op) (f : Bool) (l : List Event)
    (d : Byte) (done : List Op) : Prop where
  served : Served s.params f l s.responses
  split : (wordProc s.params c f).1 = done ++ todo
  unfinished : todo ≠ []
  log_eq : s.log = l ++ opEvents s.params d done
  count_eq : i = (opEvents s.params d done).length
  flag_eq : s.initFlag = (f || done.contains .setInitFlag)
  read_eq : s.readData = if done.any Op.isRead then d else 0

/-- The invariant of the block: an Idle block has served whole commands since reset; a Busy one has
served whole commands and stands at a place inside the command in flight. -/
def BlockInvariant (s : State) : Prop :=
  match s.phase with
  | .idle => s.readData = 0 ∧ Served s.params s.initFlag s.log s.responses
  | .busy c i todo => ∃ f l d done, InFlight s c i todo f l d done

/-- A sequence of events stands in the log without a gap. -/
def occursIn (evs log : List Event) : Prop := ∃ before after, log = before ++ evs ++ after

end Sys2Proof.Machine
end

