-- ==== Sys2Proof/Certificates/Slice0/Obligations.lean ====
section
/-! DEFINITION. The statements for the provers. Each docstring names the rules of spec/ it formalises.
`quietFor n` says that no outside input lands within the block's next n moves; it is the model's way of
saying that a command is neither aborted by a reset nor still waiting when the step ends. -/

open Sys2Proof Sys2Proof.Machine

/-! ## Encoding (spec/30_encoding.md R60 to R69) -/

/-- R69 and R65: on well-formed commands `decode` undoes `encode`, for every value of every operand. -/
def Obligations.DecodeUndoesEncode : Prop :=
  ∀ i : Instr, i.WellFormed → decode (encode i) = .command i

/-- R69 and R65: a word that decodes to a command is that command's encoding, so a command has one word;
and the command is well formed. -/
def Obligations.EncodeUndoesDecode : Prop :=
  ∀ (w : Word) (i : Instr), decode w = .command i → i.WellFormed ∧ encode i = w

/-- R69: `encode` is the shift-and-or formula of every command, for operands in their ranges; and its
five examples. -/
def Obligations.EncodeIsTheShiftFormula : Prop :=
  encode .init = 0x01#64 <<< 56
    ∧ encode .stopall = 0x05#64 <<< 56
    ∧ (∀ ch on off : Nat, ch ≤ 255 → on ≤ 65535 → off ≤ 65535 →
        encode (.setch ch on off)
            = BitVec.ofNat 64 (0x02 <<< 56 ||| ch <<< 48 ||| on <<< 32 ||| off <<< 16)
          ∧ encode (.setwin ch on off)
            = BitVec.ofNat 64 (0x10 <<< 56 ||| ch <<< 48 ||| on <<< 32 ||| off <<< 16))
    ∧ (∀ (p : Pair) (d : Dir),
        encode (.step p d)
          = BitVec.ofNat 64 (0x03 <<< 56 ||| (if p = .pair2 then 1 else 0) <<< 48
              ||| (if d = .ccw then 1 else 0) <<< 32))
    ∧ (∀ deg : Int, -32768 ≤ deg → deg ≤ 32767 →
        encode (.servo deg) = BitVec.ofNat 64 (0x04 <<< 56 ||| (deg % 65536).toNat <<< 32))
    ∧ (∀ reg val : Nat, reg ≤ 255 → val ≤ 65535 →
        encode (.wrreg reg val) = BitVec.ofNat 64 (0x11 <<< 56 ||| reg <<< 48 ||| val <<< 32)
          ∧ encode (.wrcmd val) = BitVec.ofNat 64 (0x12 <<< 56 ||| val <<< 32)
          ∧ encode (.rdreg reg) = BitVec.ofNat 64 (0x13 <<< 56 ||| reg <<< 48))
    ∧ encode (.setch 3 0 2047) = 0x0203000007FF0000#64
    ∧ encode (.step .pair2 .ccw) = 0x0301000100000000#64
    ∧ encode (.servo 90) = 0x0400005A00000000#64
    ∧ encode (.servo (-61)) = 0x0400FFC300000000#64
    ∧ encode (.wrreg 0 0x1FF) = 0x110001FF00000000#64

/-- R65: the row whose test a word meets is unique, and decoding answers that row's command with the
fields of its format; where no row matches, it answers ILLEGAL. -/
def Obligations.DecodeFollowsTheOpcodeMap : Prop :=
  (∀ r₁ ∈ opcodeTable, ∀ r₂ ∈ opcodeTable, ∀ w : Word,
      w &&& r₁.mask = r₁.pattern → w &&& r₂.mask = r₂.pattern → r₁ = r₂)
    ∧ (∀ r ∈ opcodeTable, ∀ w : Word, w &&& r.mask = r.pattern →
        decode w = .command (assemble r.mnemonic w))
    ∧ (∀ w : Word, (∀ r ∈ opcodeTable, w &&& r.mask ≠ r.pattern) →
        ∃ why, decode w = .illegal why)

/-- R66 (a) and (b): exactly which words are illegal, and for which cause, with the must-be-zero bits of
each format of R62 written out. -/
def Obligations.IllegalWordsExactly : Prop :=
  let reserved (w : Word) : Prop :=
    match (w.extractLsb' 56 8).toNat with
    | 0x01 | 0x05 => w.extractLsb' 0 56 ≠ 0
    | 0x02 | 0x10 => w.extractLsb' 0 16 ≠ 0
    | 0x03 => w.extractLsb' 49 7 ≠ 0 ∨ w.extractLsb' 33 15 ≠ 0 ∨ w.extractLsb' 0 32 ≠ 0
    | 0x04 | 0x12 => w.extractLsb' 48 8 ≠ 0 ∨ w.extractLsb' 0 32 ≠ 0
    | 0x11 => w.extractLsb' 0 32 ≠ 0
    | 0x13 => w.extractLsb' 0 48 ≠ 0
    | _ => False
  let assigned (w : Word) : Prop :=
    (w.extractLsb' 56 8).toNat ∈ [0x01, 0x02, 0x03, 0x04, 0x05, 0x10, 0x11, 0x12, 0x13]
  ∀ w : Word,
    (decode w = .illegal .unassignedOpcode ↔ ¬ assigned w)
      ∧ (decode w = .illegal .nonzeroReservedBit ↔ assigned w ∧ reserved w)
      ∧ ((∃ i, decode w = .command i) ↔ assigned w ∧ ¬ reserved w)

/-- Words of spec/95_test_vectors.md 2.1, one or more for every row and every kind of illegal word. -/
def Obligations.DecodeOfWrittenOutWords : Prop :=
  decode 0x0100000000000000#64 = .command .init
    ∧ decode 0x0203000007FF0000#64 = .command (.setch 3 0 2047)
    ∧ decode 0x0301000000000000#64 = .command (.step .pair2 .cw)
    ∧ decode 0x0300000100000000#64 = .command (.step .pair1 .ccw)
    ∧ decode 0x0400FFC300000000#64 = .command (.servo (-61))
    ∧ decode 0x0500000000000000#64 = .command .stopall
    ∧ decode 0x10FF000100010000#64 = .command (.setwin 255 1 1)
    ∧ decode 0x110001FF00000000#64 = .command (.wrreg 0 0x1FF)
    ∧ decode 0x1200FF0000000000#64 = .command (.wrcmd 0xFF00)
    ∧ decode 0x1300000000000000#64 = .command (.rdreg 0)
    ∧ decode 0x0000000000000000#64 = .illegal .unassignedOpcode
    ∧ decode 0x0302000000000000#64 = .illegal .nonzeroReservedBit

/-! ## One step (spec/10_state.md R23 to R28) -/

/-- R24, R65: an Idle block with a word at its port accepts it and runs the command the word decodes to;
acceptance sets `phase <- Busy(word, 0)` and takes the word from the port. The model's choices, not those
rules': acceptance counts one move in the schedule (log 7), the whole command runs in the step that
accepts it (log 8), and Busy holds the command's place, empty at acceptance (log 5). -/
def Obligations.StepRunsTheAcceptedCommand : Prop :=
  ∀ (s : State) (w : Word) (rest : List Word) (i : Instr),
    s.inputDue = false → s.phase = .idle → s.port = w :: rest → decode w = .command i →
      step s = exec i
        { s with phase := .busy w 0 [], port := rest, schedule := laterSchedule 1 s.schedule }

/-- R121: an illegal word is accepted and then answered `(ILLEGAL, 0x00)`; no event is appended,
`initFlag` is unchanged, and nothing else is kept. The model's choices, not R121's: `readData := 0`
(log 4), the two moves counted in the schedule (log 7), and acceptance and response in one step
(log 8). -/
def Obligations.IllegalWordIsAnsweredIllegal : Prop :=
  ∀ (s : State) (w : Word) (rest : List Word) (why : IllegalCause),
    s.quietFor 2 → s.phase = .idle → s.port = w :: rest → decode w = .illegal why →
      step s = .next
        { s with
          port := rest
          readData := 0
          responses := s.responses ++ [⟨.illegal, 0x00⟩]
          schedule := laterSchedule 2 s.schedule }

/-- R140, R24: with no word at its port an Idle block waits, and nothing of it changes. That a wait is a
step (log 12) and counts one move in the schedule (log 7) is the model's choice. -/
def Obligations.IdleBlockWaitsAtItsPort : Prop :=
  ∀ s : State, s.inputDue = false → s.phase = .idle → s.port = [] →
    step s = .next { s with schedule := laterSchedule 1 s.schedule }

/-- R24: while Busy the block accepts no word; every word waits at the port, whatever the step does. -/
def Obligations.BusyBlockAcceptsNoWord : Prop :=
  ∀ (s t : State) (c : Word) (i : Nat) (todo : List Op),
    s.phase = .busy c i todo → step s = .next t → t.port = s.port

/-- R24: no word is lost or reordered: a step takes the first word of the port or none. -/
def Obligations.NoWordIsLostOrReordered : Prop :=
  ∀ s t : State, step s = .next t → t.port = s.port ∨ ∃ w, s.port = w :: t.port

/-- R28: while the bus answer or the delay completion is not there, nothing happens. The input `wait` and
its place in the schedule are the model's choice (log 7, 9). -/
def Obligations.WaitingChangesNothing : Prop :=
  ∀ (s : State) (rest : List (Nat × EnvInput)), s.schedule = (0, .wait) :: rest →
    step s = .next { s with schedule := rest }

/-- R140: reset takes every state, Busy or Idle, to R33's values; R141: the events so far go into the
history, a word waiting at the port stays there, and the parameters stay (R33). The model's choices and
inferences: readData := 0 (log 4), the input's form (log 7), the responses kept in the history and
cleared, and what belongs to the outside left as it is (log 10). -/
def Obligations.ResetFromEveryState : Prop :=
  ∀ (s : State) (rest : List (Nat × EnvInput)), s.schedule = (0, .reset) :: rest →
    step s = .next
      { s with
        initFlag := false
        phase := .idle
        readData := 0
        responses := []
        log := []
        history := s.history ++ [⟨s.log, s.responses⟩]
        schedule := rest }

/-- R33: the state after reset; R6 and R106: the constraint on the configured parameters, and the default
of GROUP. -/
def Obligations.StateAfterReset : Prop :=
  State.reset.initFlag = false ∧ State.reset.phase = .idle ∧ State.reset.log = []
    ∧ State.reset.responses = [] ∧ State.reset.params = Config.params
    ∧ Config.params.WellFormed
    ∧ groupChannels State.reset.params .pair1 = [4, 5, 6, 7]
    ∧ groupChannels State.reset.params .pair2 = [0, 1, 2, 3]

/-! ## The meaning of each command

Each statement gives the whole next state: `completed` writes the flag, the phase, the response, the
log, and the model's own counts, and leaves every other field. -/

/-- R80: SETWIN. A word of its opcode with a nonzero bit in [15:0] is illegal. `completed` writes
readData := 0 (log 4) and the counts of outside inputs (log 7), and the whole command is one step
(log 8): the model's choices. -/
def Obligations.SetwinCompletes : Prop :=
  (∀ (s : State) (ch on off : Nat),
    let evs := windowEvents s.params ch on off
    s.quietFor (evs.length + 1) →
      (encode (.setwin ch on off)).extractLsb' 56 8 = 0x10
        ∧ exec (.setwin ch on off) s
          = .next (s.completed evs s.initFlag ⟨.ok, 0x00⟩ (evs.length + 1) 0))
    ∧ ∀ w : Word, w.extractLsb' 56 8 = 0x10 → w.extractLsb' 0 16 ≠ 0 →
        decode w = .illegal .nonzeroReservedBit

/-- R82: WRREG. The value is sent modulo 256. `completed` writes readData := 0 (log 4) and the counts of
outside inputs (log 7), and the whole command is one step (log 8): the model's choices. -/
def Obligations.WrregCompletes : Prop :=
  ∀ (s : State) (reg val : Nat), s.quietFor 2 →
    (encode (.wrreg reg val)).extractLsb' 56 8 = 0x11
      ∧ exec (.wrreg reg val) s
        = .next (s.completed
            [.W s.params.devAddr [BitVec.ofNat 8 reg, BitVec.ofNat 8 (val % 256)]]
            s.initFlag ⟨.ok, 0x00⟩ 2 0)

/-- R83: WRCMD. The value is sent modulo 256. `completed` writes readData := 0 (log 4) and the counts of
outside inputs (log 7), and the whole command is one step (log 8): the model's choices. -/
def Obligations.WrcmdCompletes : Prop :=
  ∀ (s : State) (val : Nat), s.quietFor 2 →
    (encode (.wrcmd val)).extractLsb' 56 8 = 0x12
      ∧ exec (.wrcmd val) s
        = .next (s.completed [.W s.params.devAddr [BitVec.ofNat 8 (val % 256)]]
            s.initFlag ⟨.ok, 0x00⟩ 2 0)

/-- R84: RDREG. The response carries the byte the bus answers.
The model's choices: the answer and the draw counter
(log 3), readData := 0 (log 4), the counts of outside inputs (log 7), the command in one step (log 8). -/
def Obligations.RdregCompletes : Prop :=
  ∀ (s : State) (reg : Nat), s.quietFor 2 →
    (encode (.rdreg reg)).extractLsb' 56 8 = 0x13
      ∧ exec (.rdreg reg) s
        = .next (s.completed [.WR s.params.devAddr (BitVec.ofNat 8 reg) s.busAnswer]
            s.initFlag ⟨.ok, s.busAnswer⟩ 2 1)

/-- R90: INIT. On a Running block no event; on an Uninitialized one the seven events of R96, then the
flag. The model's choices: the answer and the draw counter
(log 3), readData := 0 (log 4), the counts of outside inputs (log 7), the command in one step (log 8). -/
def Obligations.InitCompletes : Prop :=
  ∀ s : State, s.quietFor (initMoves s + 1) →
    encode .init = 0x0100000000000000#64
      ∧ exec .init s
        = .next (s.completed (initEvents s) true ⟨.ok, 0x00⟩ (initMoves s + 1) (initReads s))

/-- R94: SETCH. The initialization comes first, whatever the channel (90_conflicts.md C1).
The model's choices: the answer and the draw counter
(log 3), readData := 0 (log 4), the counts of outside inputs (log 7), the command in one step (log 8). -/
def Obligations.SetchCompletes : Prop :=
  ∀ (s : State) (ch on off : Nat),
    let evs := windowEvents s.params ch on off
    s.quietFor (initMoves s + evs.length + 1) →
      (encode (.setch ch on off)).extractLsb' 56 8 = 0x02
        ∧ exec (.setch ch on off) s
          = .next (s.completed (initEvents s ++ evs) true ⟨.ok, 0x00⟩
              (initMoves s + evs.length + 1) (initReads s))

/-- R100: STEP. Four window writes, coil A to coil D, on the channels of `PERM(s, d)`: for every table R101
allows, one write on each channel of the pair's group and none elsewhere.
The model's choices: the answer and the draw counter
(log 3), readData := 0 (log 4), the counts of outside inputs (log 7), the command in one step (log 8). -/
def Obligations.StepCompletes : Prop :=
  ∀ (s : State) (q : Pair) (d : Dir), s.quietFor (initMoves s + 5) →
    let p := s.params
    let write (k : Coil) := windowWrite p (permChannel p q d k) (phaseOn p k) (phaseOff p k)
    (encode (.step q d)).extractLsb' 56 8 = 0x03
      ∧ exec (.step q d) s
        = .next (s.completed (initEvents s ++ [write .A, write .B, write .C, write .D]) true
            ⟨.ok, 0x00⟩ (initMoves s + 5) (initReads s))
      ∧ (p.WellFormed → ∀ c, (coils.map (permChannel p q d)).count c
          = if c ∈ groupChannels p q then 1 else 0)

/-- R104: STOPALL. Eight zero windows, on channels 6, 7, 4, 5, 2, 3, 0, 1 in that order.
The model's choices: the answer and the draw counter
(log 3), readData := 0 (log 4), the counts of outside inputs (log 7), the command in one step (log 8). -/
def Obligations.StopallCompletes : Prop :=
  ∀ s : State, s.quietFor (initMoves s + 9) →
    encode .stopall = 0x0500000000000000#64
      ∧ exec .stopall s
        = .next (s.completed
            (initEvents s ++
              [6, 7, 4, 5, 2, 3, 0, 1].map fun c =>
                .W s.params.devAddr
                  [BitVec.ofNat 8 (s.params.regBase.val + 4 * c), 0x00, 0x00, 0x00, 0x00])
            true ⟨.ok, 0x00⟩ (initMoves s + 9) (initReads s))

/-- R110: SERVO. One window write on PEN_CH, on-tick 0, off-tick the floor of R111, not clamped.
The model's choices: the answer and the draw counter
(log 3), readData := 0 (log 4), the counts of outside inputs (log 7), the command in one step (log 8). -/
def Obligations.ServoCompletes : Prop :=
  ∀ (s : State) (deg : Int), s.quietFor (initMoves s + 2) →
    (encode (.servo deg)).extractLsb' 56 8 = 0x04
      ∧ exec (.servo deg) s
        = .next (s.completed
            (initEvents s ++
              [windowWrite s.params s.params.penCh.val 0 ((10 * deg + 600) * 4096 / 20000)])
            true ⟨.ok, 0x00⟩ (initMoves s + 2) (initReads s))

/-- R27, R135: the byte of a read is whatever the bus answers, any byte at all. -/
def Obligations.ReadAnswersAnyByte : Prop :=
  ∀ (s : State) (reg : Nat) (b : Byte) (later : List Byte),
    s.quietFor 2 → s.busAnswers = b :: later →
      ∃ t, exec (.rdreg reg) s = .next t
        ∧ t.log = s.log ++ [.WR s.params.devAddr (BitVec.ofNat 8 reg) b]
        ∧ t.responses = s.responses ++ [⟨.ok, b⟩]
        ∧ t.busAnswers = later

/-- R80 to R84, R90 to R95, R100, R104, R110: every command runs exactly the primitives of its rule, in the
rule's order, written out in `ruleOps` with no procedure of the machine: the bytes of every write, the
read, the delay, the write of the flag and the response. It holds for every schedule of outside inputs,
so where a command is cut, too. That a run of primitives is one step is the model's choice (log 8). -/
def Obligations.ExecRunsThePseudocode : Prop :=
  ∀ (i : Instr) (s : State), exec i s = .next (runOps (ruleOps s.params s.initFlag i) s)

/-- R96: EnsureInit on an Uninitialized block performs seven primitives that emit the seven events, for every
answer b of the bus, and then, after event 7 and nowhere before, the write of the flag; the sequence has
five writes, one read and one delay. On a Running block EnsureInit performs nothing. -/
def Obligations.InitializationEvents : Prop :=
  ∀ (p : Params) (b : Byte), ∃ first : List Op,
    (ensureInit p false).1 = first ++ [.setInitFlag]
      ∧ Op.setInitFlag ∉ first
      ∧ first.map (Op.event p b)
        = [ some (.W p.devAddr [p.regMode, 0x00]),
            some (.WR p.devAddr p.regMode b),
            some (.W p.devAddr [p.regMode, (b &&& 0x7F) ||| 0x10]),
            some (.W p.devAddr [p.regPrescale, 0x79]),
            some (.W p.devAddr [p.regMode, b]),
            some (.DLY 5000),
            some (.W p.devAddr [p.regMode, b ||| 0xA0]) ]
      ∧ opEvents p b (ensureInit p false).1 = initSeq p b
      ∧ (ensureInit p false).2 = true
      ∧ ensureInit p true = ([], true)

/-! ## Outside inputs inside a command (spec/70_reset_and_hazards.md R141, spec/10_state.md R23, R28) -/

/-- Where an outside input lands inside a command, the block is Busy with that command: its first
primitives are done, their events are in the log in order, i counts them, the rest is still to do, and
no response is given. The place kept in Busy (log 5), the schedule (log 7) and the place of a wait for an
answer (log 9) are the model's choices. -/
def Obligations.InputLandsInsideACommand : Prop :=
  ∀ (i : Instr) (s : State) (c : Word) (k n : Nat) (e : EnvInput) (rest : List (Nat × EnvInput)),
    let ops := ((commandProc s.params i) s.initFlag).1
    s.phase = .busy c k [] → s.schedule = (n, e) :: rest → n < ops.length →
      ∃ t, exec i s = .next t
        ∧ t.log = s.log ++ opEvents s.params s.busAnswer (ops.take n)
        ∧ t.phase = .busy c (k + (opEvents s.params s.busAnswer (ops.take n)).length) (ops.drop n)
        ∧ t.initFlag = (s.initFlag || (ops.take n).contains .setInitFlag)
        ∧ t.responses = s.responses
        ∧ t.schedule = (0, e) :: rest
        ∧ t.port = s.port ∧ t.history = s.history ∧ t.params = s.params

/-- R141: a reset inside a command aborts it without a response; the events it had emitted stay in the
history, the flag is false, and the log since reset is empty. The model's choices and inferences, not
R141's: the place in Busy (log 5) and the schedule (log 7); that the history holds exactly the events of
the first n primitives, so that a read whose answer had not come leaves none (log 9); that the responses
go into the history and are cleared (log 10). -/
def Obligations.ResetInsideACommandAbortsIt : Prop :=
  ∀ (i : Instr) (s : State) (c : Word) (k n : Nat) (rest : List (Nat × EnvInput)),
    let ops := ((commandProc s.params i) s.initFlag).1
    s.phase = .busy c k [] → s.schedule = (n, .reset) :: rest → n < ops.length →
      ∃ t u, exec i s = .next t ∧ step t = .next u
        ∧ u.initFlag = false ∧ u.phase = .idle ∧ u.log = [] ∧ u.responses = []
        ∧ u.history
          = s.history ++ [⟨s.log ++ opEvents s.params s.busAnswer (ops.take n), s.responses⟩]
        ∧ u.port = s.port ∧ u.params = s.params ∧ u.schedule = rest

/-- R28: waiting inside a command changes nothing of its outcome, whatever inputs come after the wait. The
run that waits once (t, then u) goes on as the run whose schedule lacks the wait does: where the next
input is due at once, both stand in the very same state u; otherwise the step after u ends in the very
state of the run without the wait. The form of the inputs is the model's choice (log 7, 9). -/
def Obligations.WaitInsideACommandChangesNothing : Prop :=
  ∀ (i : Instr) (s : State) (c : Word) (k n : Nat) (rest : List (Nat × EnvInput)),
    s.phase = .busy c k [] → s.schedule = (n, .wait) :: rest →
      n < ((commandProc s.params i) s.initFlag).1.length →
      ∃ t u v, exec i s = .next t ∧ step t = .next u
        ∧ exec i { s with schedule := scheduleAfter n rest } = .next v
        ∧ (if u.inputDue then u = v else step u = .next v)

/-! ## Invariants and whole-machine rules -/

/-- Every step keeps the invariant: the block has served whole commands since reset, each with its own
events in order and one response, and a Busy block stands at a place inside its command. -/
def Obligations.EveryStepKeepsTheInvariant : Prop :=
  ∀ s t : State, BlockInvariant s → step s = .next t → BlockInvariant t

/-- The invariant holds right after reset. -/
def Obligations.InvariantAfterReset : Prop := BlockInvariant State.reset

/-- R120: from a state that meets the invariant, a step neither faults nor refuses. -/
def Obligations.BlockNeverStops : Prop := ∀ s : State, BlockInvariant s → answersNext (step s)

/-- R22, R96: on a Running block the whole initialization sequence stands in the log since reset. -/
def Obligations.RunningBlockWasInitialized : Prop :=
  ∀ s : State, BlockInvariant s → s.initFlag = true → ∃ b, occursIn (initSeq s.params b) s.log

/-- R97, R51: at most one initialization sequence runs between two resets. The log since reset holds at most
one delay request, and at most one place in it is an initialization sequence. Once the flag is set, a
step that is no reset emits no delay, and a command that calls EnsureInit emits no event of R96 again.
(A raw command may send the bytes of one such write or read of its own accord: R148, log 18.) -/
def Obligations.AtMostOneInitialization : Prop :=
  (∀ s : State, BlockInvariant s →
      (s.log.filter Event.isDelay).length ≤ 1
        ∧ ∀ (b b' : Byte) (x y x' y' : List Event),
            s.log = x ++ initSeq s.params b ++ y → s.log = x' ++ initSeq s.params b' ++ y' →
              x = x' ∧ b = b' ∧ y = y')
    ∧ ∀ s t : State, BlockInvariant s → s.initFlag = true → step s = .next t →
        (∃ rest, s.schedule = (0, .reset) :: rest)
          ∨ ∃ evs, t.log = s.log ++ evs
              ∧ (∀ e ∈ evs, e.isDelay = false)
              ∧ ∀ (w : Word) (i : Instr), s.current = some w → decode w = .command i →
                  initializes i = true → ∀ e ∈ evs, ∀ b, e ∉ initSeq s.params b

/-- R40, R44, R45: every event goes to DEV_ADDR in one of the four transaction formats, or is the settle
delay. -/
def Obligations.EveryEventHasItsFormat : Prop :=
  ∀ s : State, BlockInvariant s → ∀ e ∈ s.log, e.hasFormat s.params

/-- R22: no step clears the Initialization Flag but a reset. -/
def Obligations.OnlyResetClearsTheFlag : Prop :=
  ∀ s t : State, step s = .next t → s.initFlag = true → t.initFlag = false →
    ∃ rest, s.schedule = (0, .reset) :: rest

/-- R128: no command, legal or illegal, changes `initFlag` except false to true inside EnsureInit: where
it changes, the whole sequence of R96 has just been emitted. The last clause says the same of every
step, so of a command that goes on after an outside input; a reset alone does otherwise. -/
def Obligations.FlagChangesOnlyInsideEnsureInit : Prop :=
  (∀ (i : Instr) (s t : State), exec i s = .next t →
      t.initFlag = s.initFlag
        ∨ (s.initFlag = false ∧ t.initFlag = true
            ∧ ∃ b evs, t.log = s.log ++ initSeq s.params b ++ evs))
    ∧ (∀ s : State, (raiseIllegal s).initFlag = s.initFlag)
    ∧ ∀ s t : State, BlockInvariant s → step s = .next t → t.initFlag ≠ s.initFlag →
        (s.initFlag = false ∧ t.initFlag = true ∧ ∃ b, occursIn (initSeq s.params b) t.log)
          ∨ ∃ rest, s.schedule = (0, .reset) :: rest

/-- R22: SETWIN, WRREG, WRCMD and RDREG neither read nor write the flag: with the flag turned, they do
the same and leave it turned. It holds where an outside input cuts them, too. -/
def Obligations.RawCommandsIgnoreTheFlag : Prop :=
  ∀ (i : Instr) (s : State) (f : Bool),
    (match i with
      | .setwin _ _ _ | .wrreg _ _ | .wrcmd _ | .rdreg _ => True
      | _ => False) →
      ∃ t, exec i s = .next t ∧ t.initFlag = s.initFlag
        ∧ exec i { s with initFlag := f } = .next { t with initFlag := f }

/-- R26: the log is append-only; only a reset empties it. -/
def Obligations.LogOnlyGrows : Prop :=
  ∀ s t : State, step s = .next t →
    (∃ evs, t.log = s.log ++ evs) ∨ (t.log = [] ∧ ∃ rest, s.schedule = (0, .reset) :: rest)

/-- R141: nothing the block has done is forgotten: a step adds to the trace, a reset exactly its marker. -/
def Obligations.TraceOnlyGrows : Prop :=
  ∀ s t : State, step s = .next t →
    (∃ items, t.trace = s.trace ++ items)
      ∧ ∀ rest, s.schedule = (0, .reset) :: rest → t.trace = s.trace ++ [.resetMark]

/-- R120, R25: a legal command responds OK, with data 0x00 unless it is RDREG, and the block is Idle; only
where an outside input cuts it has it not responded yet. The same holds where a command that was cut goes
on: the last clause. No response ILLEGAL is added to the run. -/
def Obligations.LegalCommandsRespondOk : Prop :=
  let responds (i : Instr) (s t : State) : Prop :=
    (t.responses = s.responses ∧ t.inputDue = true)
      ∨ ∃ d, t.responses = s.responses ++ [⟨.ok, d⟩] ∧ t.phase = .idle
          ∧ (d = 0x00 ∨ ∃ reg, i = .rdreg reg)
  (∀ (i : Instr) (s t : State), exec i s = .next t →
      responds i s t ∧ (s.noIllegal = true → t.noIllegal = true))
    ∧ ∀ (i : Instr) (s t : State) (c : Word) (k : Nat) (todo : List Op),
        BlockInvariant s → s.phase = .busy c k todo → decode c = .command i →
          s.inputDue = false → step s = .next t → responds i s t

/-- R31, R33: no step changes a parameter, reset included. -/
def Obligations.ParametersNeverChange : Prop :=
  ∀ s t : State, step s = .next t → t.params = s.params

/-- R25: a step that is no reset gives at most one response. -/
def Obligations.AtMostOneResponseAStep : Prop :=
  ∀ s t : State, BlockInvariant s → step s = .next t →
    t.responses = s.responses ∨ (∃ r, t.responses = s.responses ++ [r])
      ∨ ∃ rest, s.schedule = (0, .reset) :: rest

/-- R30: what an earlier read left behind cannot be observed: a command's outcome does not depend on
`readData` where it starts. -/
def Obligations.NoBufferSurvivesIntoACommand : Prop :=
  ∀ (i : Instr) (s : State) (x : Byte),
    ∃ t u, exec i s = .next t ∧ exec i { s with readData := x } = .next u
      ∧ { t with readData := 0 } = { u with readData := 0 }

/-! ## Values -/

/-- R9: the byte functions, for every integer. -/
def Obligations.ByteFunctions : Prop :=
  (∀ v : Int, ((lo8 v).toNat : Int) = v % 256 ∧ trunc8 v = lo8 v
      ∧ ((enc16 v).toNat : Int) = v % 65536
      ∧ ((tlo v).toNat : Int) = v % 65536 % 256 ∧ ((thi v).toNat : Int) = v % 65536 / 256)
    ∧ ∀ v : Int, 0 ≤ v → v ≤ 4095 →
        ((tlo v).toNat : Int) + 256 * ((thi v).toNat : Int) = v ∧ (thi v).extractLsb' 4 4 = 0

/-- R92: the prescaler, for every positive frequency, in both forms the source gives; 121 at 50 Hz. -/
def Obligations.PrescalerFormula : Prop :=
  (∀ f : Nat, 0 < f →
      prescale f = ((25000000 / (4096 * f) : Nat) : Int) - 1
        ∧ prescale f = ((25000000 / 4096 / f : Nat) : Int) - 1)
    ∧ prescale 50 = 121 ∧ trunc8 (prescale Config.F_PWM) = 0x79

/-- R111: the tick is the floor of (10·deg + 600)·4096 / 20000, for every integer degree; the source's
values at 90 and the spec's at -61. -/
def Obligations.ServoTickIsTheFloor : Prop :=
  (∀ deg : Int, 20000 * servoTick deg ≤ (10 * deg + 600) * 4096
      ∧ (10 * deg + 600) * 4096 < 20000 * (servoTick deg + 1))
    ∧ pulseUs 90 = 1500 ∧ servoTick 90 = 307 ∧ servoTick (-61) = -3

/-- R112: the slope, the in-range degrees, the recommended range and the extremes. -/
def Obligations.ServoTickRange : Prop :=
  (∀ deg : Int, servoTick (deg + 1) - servoTick deg = 2 ∨ servoTick (deg + 1) - servoTick deg = 3)
    ∧ (∀ a b : Int, a < b → servoTick a < servoTick b)
    ∧ (∀ deg : Int, (0 ≤ servoTick deg ∧ servoTick deg ≤ 4095) ↔ (-60 ≤ deg ∧ deg ≤ 1939))
    ∧ (∀ deg : Int, 30 ≤ deg → deg ≤ 155 → 184 ≤ servoTick deg ∧ servoTick deg ≤ 440)
    ∧ servoTick 30 = 184 ∧ servoTick 155 = 440
    ∧ servoTick (-32768) = -66986 ∧ servoTick 32767 = 67229

/-- R113, and the corner cases of R110: the 16-bit value sent for the tick of every DEG. It lies in 0..4095
exactly for the in-range degrees and for those that alias into the range; the lowest negative ticks set
all of bits 15 to 12; and the four rows of R113's table. -/
def Obligations.ServoBytesOutOfRange : Prop :=
  (∀ deg : Int, -32768 ≤ deg → deg ≤ 32767 →
      ((enc16 (servoTick deg)).toNat ≤ 4095 ↔
        (-32060 ≤ deg ∧ deg ≤ -30061) ∨ (-60 ≤ deg ∧ deg ≤ 1939) ∨ 31940 ≤ deg))
    ∧ (∀ deg : Int, -2060 ≤ deg → deg ≤ -61 →
        61440 ≤ (enc16 (servoTick deg)).toNat ∧ (enc16 (servoTick deg)).toNat ≤ 65533
          ∧ (thi (servoTick deg)).extractLsb' 4 4 = 0xF)
    ∧ (servoTick (-61) = -3 ∧ enc16 (servoTick (-61)) = 65533
        ∧ tlo (servoTick (-61)) = 0xFD ∧ thi (servoTick (-61)) = 0xFF)
    ∧ (servoTick 1940 = 4096 ∧ enc16 (servoTick 1940) = 4096
        ∧ tlo (servoTick 1940) = 0x00 ∧ thi (servoTick 1940) = 0x10)
    ∧ (servoTick 32767 = 67229 ∧ enc16 (servoTick 32767) = 1693
        ∧ tlo (servoTick 32767) = 0x9D ∧ thi (servoTick 32767) = 0x06)
    ∧ (servoTick (-32768) = -66986 ∧ enc16 (servoTick (-32768)) = 64086
        ∧ tlo (servoTick (-32768)) = 0x56 ∧ thi (servoTick (-32768)) = 0xFA)

/-- R105: the channels of each motor index, which cover 0 to 7 exactly once. -/
def Obligations.MotorChannels : Prop :=
  motorCh 1 = (6, 7) ∧ motorCh 2 = (4, 5) ∧ motorCh 3 = (2, 3) ∧ motorCh 4 = (0, 1)
    ∧ ∀ c : Nat, c < 8 →
        (motorIndices.flatMap fun i => [(motorCh i).1, (motorCh i).2]).count c = 1

/-- R93, R96: of the seven events EnsureInit emits, the third writes the sleep byte, the fifth restores the
byte read, and the seventh writes the restart byte, all to the mode register. The sleep byte has bit 4 set
and bit 7 clear, the restart byte has bits 7 and 5 set, and every other bit of both is the bit read. -/
def Obligations.ModeByteBits : Prop :=
  ∀ (p : Params) (b : Byte),
    let evs := opEvents p b (ensureInit p false).1
    ∃ sleep restart : Byte,
      evs[2]? = some (.W p.devAddr [p.regMode, sleep])
        ∧ evs[4]? = some (.W p.devAddr [p.regMode, b])
        ∧ evs[6]? = some (.W p.devAddr [p.regMode, restart])
        ∧ sleep.getLsbD 4 = true ∧ sleep.getLsbD 7 = false
        ∧ (∀ j < 8, j ≠ 4 → j ≠ 7 → sleep.getLsbD j = b.getLsbD j)
        ∧ restart.getLsbD 7 = true ∧ restart.getLsbD 5 = true
        ∧ (∀ j < 8, j ≠ 7 → j ≠ 5 → restart.getLsbD j = b.getLsbD j)

/-! ## The stepper (spec/42_stepper.md) -/

/-- R100, R101: for every table R101 allows, the four coils of a pair stand on the four channels of its
group, each once; the two groups are apart; and every channel is in 0..7. -/
def Obligations.StepCoversItsGroupOnce : Prop :=
  ∀ (p : Params) (q : Pair) (d : Dir), p.WellFormed →
    (∀ c, ((coils.map (permChannel p q d)).count c = if c ∈ groupChannels p q then 1 else 0))
      ∧ (∀ k, permChannel p q d k ≤ 7)
      ∧ (∀ q', q' ≠ q → ∀ k, permChannel p q d k ∉ groupChannels p q')

/-- R103: STEP s, CW followed by STEP s, CCW writes each coil's window first to its CW channel and then to
another one, its CCW channel; after each command `lastWin` of every coil's channel is that coil's
window, and the windows written are the same. -/
def Obligations.DirectionReversal : Prop :=
  ∀ (s : State) (q : Pair), s.params.WellFormed → s.quietFor (initMoves s + 10) →
    let p := s.params
    let window (k : Coil) := ((p.phaseWin.win k).on.toNat, (p.phaseWin.win k).off.toNat)
    ∃ t u, exec (.step q .cw) s = .next t ∧ exec (.step q .ccw) t = .next u
      ∧ t.log = (s.log ++ initEvents s) ++ coils.map (fun k =>
          windowWrite p (permChannel p q .cw k) (phaseOn p k) (phaseOff p k))
      ∧ (∀ k, lastWin p t.log (permChannel p q .cw k) = some (window k))
      ∧ (∀ k, lastWin p u.log (permChannel p q .ccw k) = some (window k))
      ∧ (∀ k, permChannel p q .cw k ≠ permChannel p q .ccw k)
      ∧ (∀ k, permChannel p q .ccw k ∈ groupChannels p q)
      ∧ u.log = t.log ++ coils.map fun k =>
          windowWrite p (permChannel p q .ccw k) (phaseOn p k) (phaseOff p k)

/-- R107: after STOPALL the last window of every channel 0..7 is the zero window, and the windows of
channels 8..15 are as before. -/
def Obligations.LastWindowsAfterStopall : Prop :=
  ∀ s : State, s.quietFor (initMoves s + 9) →
    ∃ t, exec .stopall s = .next t
      ∧ (∀ c < 8, lastWin s.params t.log c = some (0, 0))
      ∧ ∀ c, 8 ≤ c → c ≤ 15 → lastWin s.params t.log c = lastWin s.params s.log c

/-- R35, R42: after SETCH with channel and ticks in range, the last window of that channel is the one
given, and every other channel's is as before. -/
def Obligations.LastWindowAfterSetch : Prop :=
  ∀ (s : State) (ch on off : Nat), ch ≤ 15 → on ≤ 65535 → off ≤ 65535 →
    s.quietFor (initMoves s + 2) →
    ∃ t, exec (.setch ch on off) s = .next t
      ∧ lastWin s.params t.log ch = some (on, off)
      ∧ ∀ c ≤ 15, c ≠ ch → lastWin s.params t.log c = lastWin s.params s.log c

/-! ## The host's side (spec/30_encoding.md R68 to R79) -/

/-- R75 to R79: the Motion Facade operations as host sequences. Exact fractional durations and TURN_DIR as
an argument are the model's choice (log 14; N11 and N12 leave both open). -/
def Obligations.HostSequences : Prop :=
  (∀ (d : Dir) (ms : Rat),
      spinWheels d ms
          = [.command (.step .pair1 d), .command (.step .pair2 d.opp), .hold ms, .command .stopall]
        ∧ turnWheels d ms
          = [.command (.step .pair1 d), .command (.step .pair2 d), .hold ms, .command .stopall])
    ∧ (∀ cm : Rat, moveDistance .forward cm = spinWheels .ccw (cm / (152 / 10) * 3000)
        ∧ moveDistance .backward cm = spinWheels .cw (cm / (152 / 10) * 3000))
    ∧ (∀ (turnDir : Turn → Dir) (t : Turn) (deg : Rat),
        turnAngle turnDir t deg = turnWheels (turnDir t) (deg / 692 * 10000))
    ∧ setPen .down = [.command (.servo 155), .hold 500]
    ∧ setPen .up = [.command (.servo 80), .hold 500]
    ∧ setPen .out = [.command (.servo 30), .hold 2000, .command (.servo 80)]

/-- R68: what each mnemonic assembles to, for every list of operands. Operands in their ranges give the
command with exactly those operands; an operand out of its range, an operand of the wrong sort, or a wrong
number of operands gives an error, so nothing is ever wrapped. A line that assembles gives a well-formed
command, and every well-formed command can be written. -/
def Obligations.AssemblerKeepsTheRanges : Prop :=
  let fits (lo hi v : Int) : Prop := lo ≤ v ∧ v ≤ hi
  let shaped (m : Mnemonic) (ops : List AsmOperand) : Prop :=
    match m, ops with
    | .INIT, [] | .STOPALL, [] => True
    | .SETCH, [.num _, .num _, .num _] | .SETWIN, [.num _, .num _, .num _] => True
    | .STEP, [.pair _, .dir _] => True
    | .SERVO, [.num _] | .WRCMD, [.num _] | .RDREG, [.num _] => True
    | .WRREG, [.num _, .num _] => True
    | _, _ => False
  (assembleParts .INIT [] = .command .init ∧ assembleParts .STOPALL [] = .command .stopall)
    ∧ (∀ ch on off : Int,
        (fits 0 255 ch ∧ fits 0 65535 on ∧ fits 0 65535 off →
          assembleParts .SETCH [.num ch, .num on, .num off]
              = .command (.setch ch.toNat on.toNat off.toNat)
            ∧ assembleParts .SETWIN [.num ch, .num on, .num off]
              = .command (.setwin ch.toNat on.toNat off.toNat))
        ∧ (¬ (fits 0 255 ch ∧ fits 0 65535 on ∧ fits 0 65535 off) →
          assembleParts .SETCH [.num ch, .num on, .num off] = .error
            ∧ assembleParts .SETWIN [.num ch, .num on, .num off] = .error))
    ∧ (∀ (q : Pair) (d : Dir), assembleParts .STEP [.pair q, .dir d] = .command (.step q d))
    ∧ (∀ v : Int,
        (fits (-32768) 32767 v → assembleParts .SERVO [.num v] = .command (.servo v))
        ∧ (¬ fits (-32768) 32767 v → assembleParts .SERVO [.num v] = .error)
        ∧ (fits 0 65535 v → assembleParts .WRCMD [.num v] = .command (.wrcmd v.toNat))
        ∧ (¬ fits 0 65535 v → assembleParts .WRCMD [.num v] = .error)
        ∧ (fits 0 255 v → assembleParts .RDREG [.num v] = .command (.rdreg v.toNat))
        ∧ (¬ fits 0 255 v → assembleParts .RDREG [.num v] = .error))
    ∧ (∀ reg v : Int,
        (fits 0 255 reg ∧ fits 0 65535 v →
          assembleParts .WRREG [.num reg, .num v] = .command (.wrreg reg.toNat v.toNat))
        ∧ (¬ (fits 0 255 reg ∧ fits 0 65535 v) →
          assembleParts .WRREG [.num reg, .num v] = .error))
    ∧ (∀ (m : Mnemonic) (ops : List AsmOperand), ¬ shaped m ops → assembleParts m ops = .error)
    ∧ (∀ (line : List Char) (i : Instr), assembleLine line = .command i → i.WellFormed)
    ∧ ∀ i : Instr, i.WellFormed → ∃ m ops, assembleParts m ops = .command i
end

