-- ==== Sys2Proof/Laws/Decode.lean ====
section
/-! SUPPORT. The command word as its five fields: the fields of a packed word, words equal when their
fields are, each row of the opcode map said in fields, and when `decode` answers a command. -/

namespace Sys2Proof

/-! ## The fields of a packed word -/

@[simp] theorem opField_pack (op a : Byte) (x y z : Half) : opField (pack op a x y z) = op := by
  unfold opField pack
  ext i hi
  simp +arith [BitVec.getElem_extractLsb', BitVec.getLsbD_or]
  simp [BitVec.getLsbD_eq_getElem hi, (by omega : i ≤ 7), (by omega : i ≤ 63)]

@[simp] theorem aField_pack (op a : Byte) (x y z : Half) : aField (pack op a x y z) = a := by
  unfold aField pack
  ext i hi
  simp +arith [BitVec.getElem_extractLsb', BitVec.getLsbD_or]
  simp [BitVec.getLsbD_eq_getElem hi, (by omega : i ≤ 7), (by omega : i ≤ 15),
    (by omega : i ≤ 63)]

@[simp] theorem xField_pack (op a : Byte) (x y z : Half) : xField (pack op a x y z) = x := by
  unfold xField pack
  ext i hi
  simp +arith [BitVec.getElem_extractLsb', BitVec.getLsbD_or]
  simp [BitVec.getLsbD_eq_getElem hi, (by omega : i ≤ 15), (by omega : i ≤ 23),
    (by omega : i ≤ 31), (by omega : i ≤ 63)]

@[simp] theorem yField_pack (op a : Byte) (x y z : Half) : yField (pack op a x y z) = y := by
  unfold yField pack
  ext i hi
  simp +arith [BitVec.getElem_extractLsb', BitVec.getLsbD_or]
  simp [BitVec.getLsbD_eq_getElem hi, (by omega : i ≤ 15), (by omega : i ≤ 31),
    (by omega : i ≤ 39), (by omega : i ≤ 47), (by omega : i ≤ 63)]

@[simp] theorem zField_pack (op a : Byte) (x y z : Half) : zField (pack op a x y z) = z := by
  unfold zField pack
  ext i hi
  simp +arith [BitVec.getElem_extractLsb', BitVec.getLsbD_or]
  simp [BitVec.getLsbD_eq_getElem hi, (by omega : i ≤ 15), (by omega : i ≤ 31),
    (by omega : i ≤ 47), (by omega : i ≤ 55), (by omega : i ≤ 63)]

/-! ## A word is its fields -/

theorem word_ext {v w : Word} (h1 : opField v = opField w) (h2 : aField v = aField w)
    (h3 : xField v = xField w) (h4 : yField v = yField w) (h5 : zField v = zField w) : v = w := by
  apply BitVec.eq_of_toNat_eq
  have e1 := congrArg BitVec.toNat h1
  have e2 := congrArg BitVec.toNat h2
  have e3 := congrArg BitVec.toNat h3
  have e4 := congrArg BitVec.toNat h4
  have e5 := congrArg BitVec.toNat h5
  simp only [opField, aField, xField, yField, zField, BitVec.extractLsb'_toNat,
    Nat.shiftRight_eq_div_pow] at e1 e2 e3 e4 e5
  omega

theorem word_eq_iff (v w : Word) :
    v = w ↔ opField v = opField w ∧ aField v = aField w ∧ xField v = xField w
      ∧ yField v = yField w ∧ zField v = zField w :=
  ⟨fun h => by simp [h], fun ⟨h1, h2, h3, h4, h5⟩ => word_ext h1 h2 h3 h4 h5⟩

theorem pack_fields (w : Word) :
    pack (opField w) (aField w) (xField w) (yField w) (zField w) = w := by
  apply word_ext <;> simp

/-! ## The rows of the opcode map in fields -/

/-- A row's test, field by field: each field under the mask's field is the pattern's field. -/
theorem selects_iff (r : OpcodeRow) (w : Word) :
    r.selects w = true ↔
      opField w &&& opField r.mask = opField r.pattern
      ∧ aField w &&& aField r.mask = aField r.pattern
      ∧ xField w &&& xField r.mask = xField r.pattern
      ∧ yField w &&& yField r.mask = yField r.pattern
      ∧ zField w &&& zField r.mask = zField r.pattern := by
  rw [OpcodeRow.selects, beq_iff_eq, word_eq_iff]
  simp only [opField, aField, xField, yField, zField, BitVec.extractLsb'_and]

theorem and_ff (x : Byte) : x &&& 0xFF#8 = x := BitVec.and_allOnes

theorem and_ffff (x : Half) : x &&& 0xFFFF#16 = x := BitVec.and_allOnes

/-- Seven must-be-zero bits and one free bit (field A of STEP). -/
theorem and_fe_eq_zero (x : Byte) : x &&& 0xFE#8 = 0#8 ↔ x = 0#8 ∨ x = 1#8 := by
  revert x; decide

/-- Fifteen must-be-zero bits and one free bit (field X of STEP). -/
theorem and_fffe_eq_zero (x : Half) : x &&& 0xFFFE#16 = 0#16 ↔ x = 0#16 ∨ x = 1#16 := by
  constructor
  · intro h
    have key : x = x &&& 1#16 := by
      have e : x &&& (0xFFFE#16 ||| 1#16) = x := and_ffff x
      rwa [BitVec.and_or_distrib_left, h, BitVec.zero_or, eq_comm] at e
    have hm : x.toNat = x.toNat % 2 := by
      have e := congrArg BitVec.toNat key
      simpa [Nat.and_one_is_mod] using e
    have hlt : x.toNat < 2 := by omega
    rcases (by omega : x.toNat = 0 ∨ x.toNat = 1) with h0 | h1
    · exact .inl (BitVec.eq_of_toNat_eq (by simpa using h0))
    · exact .inr (BitVec.eq_of_toNat_eq (by simpa using h1))
  · rintro (rfl | rfl) <;> decide

/-- The test of each row, in fields: which OP, and which fields must be zero (R62, R66). -/
theorem selects_init (w : Word) :
    (OpcodeRow.mk .INIT 0x0100000000000000#64 0xFFFFFFFFFFFFFFFF#64).selects w = true ↔
      opField w = 0x01#8 ∧ aField w = 0#8 ∧ xField w = 0#16 ∧ yField w = 0#16 ∧ zField w = 0#16 := by
  rw [selects_iff]
  simp [opField, aField, xField, yField, zField, and_ff, and_ffff]

theorem selects_setch (w : Word) :
    (OpcodeRow.mk .SETCH 0x0200000000000000#64 0xFF0000000000FFFF#64).selects w = true ↔
      opField w = 0x02#8 ∧ zField w = 0#16 := by
  rw [selects_iff]
  simp [opField, aField, xField, yField, zField, and_ff, and_ffff]

theorem selects_step (w : Word) :
    (OpcodeRow.mk .STEP 0x0300000000000000#64 0xFFFEFFFEFFFFFFFF#64).selects w = true ↔
      opField w = 0x03#8 ∧ (aField w = 0#8 ∨ aField w = 1#8) ∧ (xField w = 0#16 ∨ xField w = 1#16)
        ∧ yField w = 0#16 ∧ zField w = 0#16 := by
  rw [selects_iff, ← and_fe_eq_zero, ← and_fffe_eq_zero]
  simp [opField, aField, xField, yField, zField, and_ff, and_ffff]

theorem selects_servo (w : Word) :
    (OpcodeRow.mk .SERVO 0x0400000000000000#64 0xFFFF0000FFFFFFFF#64).selects w = true ↔
      opField w = 0x04#8 ∧ aField w = 0#8 ∧ yField w = 0#16 ∧ zField w = 0#16 := by
  rw [selects_iff]
  simp [opField, aField, xField, yField, zField, and_ff, and_ffff]

theorem selects_stopall (w : Word) :
    (OpcodeRow.mk .STOPALL 0x0500000000000000#64 0xFFFFFFFFFFFFFFFF#64).selects w = true ↔
      opField w = 0x05#8 ∧ aField w = 0#8 ∧ xField w = 0#16 ∧ yField w = 0#16 ∧ zField w = 0#16 := by
  rw [selects_iff]
  simp [opField, aField, xField, yField, zField, and_ff, and_ffff]

theorem selects_setwin (w : Word) :
    (OpcodeRow.mk .SETWIN 0x1000000000000000#64 0xFF0000000000FFFF#64).selects w = true ↔
      opField w = 0x10#8 ∧ zField w = 0#16 := by
  rw [selects_iff]
  simp [opField, aField, xField, yField, zField, and_ff, and_ffff]

theorem selects_wrreg (w : Word) :
    (OpcodeRow.mk .WRREG 0x1100000000000000#64 0xFF000000FFFFFFFF#64).selects w = true ↔
      opField w = 0x11#8 ∧ yField w = 0#16 ∧ zField w = 0#16 := by
  rw [selects_iff]
  simp [opField, aField, xField, yField, zField, and_ff, and_ffff]

theorem selects_wrcmd (w : Word) :
    (OpcodeRow.mk .WRCMD 0x1200000000000000#64 0xFFFF0000FFFFFFFF#64).selects w = true ↔
      opField w = 0x12#8 ∧ aField w = 0#8 ∧ yField w = 0#16 ∧ zField w = 0#16 := by
  rw [selects_iff]
  simp [opField, aField, xField, yField, zField, and_ff, and_ffff]

theorem selects_rdreg (w : Word) :
    (OpcodeRow.mk .RDREG 0x1300000000000000#64 0xFF00FFFFFFFFFFFF#64).selects w = true ↔
      opField w = 0x13#8 ∧ xField w = 0#16 ∧ yField w = 0#16 ∧ zField w = 0#16 := by
  rw [selects_iff]
  simp [opField, aField, xField, yField, zField, and_ff, and_ffff]

/-! ## When `decode` answers what -/

/-- `decode` answers a command exactly through the first row that selects the word. -/
theorem decode_eq_command (w : Word) (i : Instr) :
    decode w = .command i ↔
      ∃ r, opcodeTable.find? (fun r => r.selects w) = some r ∧ assemble r.mnemonic w = i := by
  unfold decode
  cases h : opcodeTable.find? (fun r => r.selects w) <;> simp

/-- `decode` answers ILLEGAL exactly when no row selects the word. -/
theorem decode_illegal_iff (w : Word) :
    (∃ why, decode w = .illegal why) ↔ ∀ r ∈ opcodeTable, r.selects w = false := by
  unfold decode
  cases h : opcodeTable.find? (fun r => r.selects w) with
  | some r =>
    have hm := List.mem_of_find?_eq_some h
    have hs := List.find?_some h
    simp only [reduceCtorEq, exists_false, false_iff]
    intro hall
    simp [hall r hm] at hs
  | none => simpa using List.find?_eq_none.mp h

end Sys2Proof
end

