-- ==== Sys2Proof/Laws/Observe.lean ====
section
/-! SUPPORT. The event of each primitive, and the events of a list of primitives. -/

namespace Sys2Proof.Machine

section
variable (p : Params) (d : Byte)

@[simp] theorem opEvents_nil : opEvents p d [] = [] := rfl

@[simp] theorem opEvents_append (l m : List Op) :
    opEvents p d (l ++ m) = opEvents p d l ++ opEvents p d m := by simp [opEvents]

@[simp] theorem opEvents_busWrite (bytes : List Byte) (l : List Op) :
    opEvents p d (.busWrite bytes :: l) = .W p.devAddr bytes :: opEvents p d l := rfl

@[simp] theorem opEvents_busWriteOld (reg keep set : Byte) (l : List Op) :
    opEvents p d (.busWriteOld reg keep set :: l)
      = .W p.devAddr [reg, (d &&& keep) ||| set] :: opEvents p d l := rfl

@[simp] theorem opEvents_busRead (reg : Byte) (l : List Op) :
    opEvents p d (.busRead reg :: l) = .WR p.devAddr reg d :: opEvents p d l := rfl

@[simp] theorem opEvents_delay (us : Nat) (l : List Op) :
    opEvents p d (.delay us :: l) = .DLY us :: opEvents p d l := rfl

@[simp] theorem opEvents_setInitFlag (l : List Op) :
    opEvents p d (.setInitFlag :: l) = opEvents p d l := rfl

@[simp] theorem opEvents_respond (st : Status) (x : Byte) (l : List Op) :
    opEvents p d (.respond st x :: l) = opEvents p d l := rfl

@[simp] theorem opEvents_respondRead (l : List Op) :
    opEvents p d (.respondRead :: l) = opEvents p d l := rfl

end

@[simp] theorem lastWin_nil (p : Params) (c : Nat) : lastWin p [] c = none := rfl

/-- The last window of a longer log: the one the new event gives, else the one before. -/
theorem lastWin_append_singleton (p : Params) (log : List Event) (e : Event) (c : Nat) :
    lastWin p (log ++ [e]) c = (e.windowOn p c).or (lastWin p log c) := by
  cases h : e.windowOn p c <;> simp [lastWin, h]

end Sys2Proof.Machine
end

