-- ==== Sys2Proof/Laws/State.lean ====
section
/-! SUPPORT. One lemma for each field of State under each update the machine makes, true by rfl, so that
no later proof unfolds a record update. -/

namespace Sys2Proof.Machine

/-! ## emit -/

@[simp] theorem State.emit_params (s : State) (e : Event) :
    (s.emit e).params = s.params := rfl

@[simp] theorem State.emit_initFlag (s : State) (e : Event) :
    (s.emit e).initFlag = s.initFlag := rfl

@[simp] theorem State.emit_phase (s : State) (e : Event) :
    (s.emit e).phase = s.phase.counted := rfl

@[simp] theorem State.emit_readData (s : State) (e : Event) :
    (s.emit e).readData = s.readData := rfl

@[simp] theorem State.emit_port (s : State) (e : Event) :
    (s.emit e).port = s.port := rfl

@[simp] theorem State.emit_responses (s : State) (e : Event) :
    (s.emit e).responses = s.responses := rfl

@[simp] theorem State.emit_log (s : State) (e : Event) :
    (s.emit e).log = s.log ++ [e] := rfl

@[simp] theorem State.emit_history (s : State) (e : Event) :
    (s.emit e).history = s.history := rfl

@[simp] theorem State.emit_busAnswers (s : State) (e : Event) :
    (s.emit e).busAnswers = s.busAnswers := rfl

@[simp] theorem State.emit_draws (s : State) (e : Event) :
    (s.emit e).draws = s.draws := rfl

@[simp] theorem State.emit_schedule (s : State) (e : Event) :
    (s.emit e).schedule = s.schedule := rfl

/-! ## respond -/

@[simp] theorem State.respond_params (s : State) (st : Status) (d : Byte) :
    (s.respond st d).params = s.params := rfl

@[simp] theorem State.respond_initFlag (s : State) (st : Status) (d : Byte) :
    (s.respond st d).initFlag = s.initFlag := rfl

@[simp] theorem State.respond_phase (s : State) (st : Status) (d : Byte) :
    (s.respond st d).phase = .idle := rfl

@[simp] theorem State.respond_readData (s : State) (st : Status) (d : Byte) :
    (s.respond st d).readData = 0 := rfl

@[simp] theorem State.respond_port (s : State) (st : Status) (d : Byte) :
    (s.respond st d).port = s.port := rfl

@[simp] theorem State.respond_responses (s : State) (st : Status) (d : Byte) :
    (s.respond st d).responses = s.responses ++ [⟨st, d⟩] := rfl

@[simp] theorem State.respond_log (s : State) (st : Status) (d : Byte) :
    (s.respond st d).log = s.log := rfl

@[simp] theorem State.respond_history (s : State) (st : Status) (d : Byte) :
    (s.respond st d).history = s.history := rfl

@[simp] theorem State.respond_busAnswers (s : State) (st : Status) (d : Byte) :
    (s.respond st d).busAnswers = s.busAnswers := rfl

@[simp] theorem State.respond_draws (s : State) (st : Status) (d : Byte) :
    (s.respond st d).draws = s.draws := rfl

@[simp] theorem State.respond_schedule (s : State) (st : Status) (d : Byte) :
    (s.respond st d).schedule = s.schedule := rfl

/-! ## tick -/

@[simp] theorem State.tick_params (s : State) :
    (s.tick).params = s.params := rfl

@[simp] theorem State.tick_initFlag (s : State) :
    (s.tick).initFlag = s.initFlag := rfl

@[simp] theorem State.tick_phase (s : State) :
    (s.tick).phase = s.phase := rfl

@[simp] theorem State.tick_readData (s : State) :
    (s.tick).readData = s.readData := rfl

@[simp] theorem State.tick_port (s : State) :
    (s.tick).port = s.port := rfl

@[simp] theorem State.tick_responses (s : State) :
    (s.tick).responses = s.responses := rfl

@[simp] theorem State.tick_log (s : State) :
    (s.tick).log = s.log := rfl

@[simp] theorem State.tick_history (s : State) :
    (s.tick).history = s.history := rfl

@[simp] theorem State.tick_busAnswers (s : State) :
    (s.tick).busAnswers = s.busAnswers := rfl

@[simp] theorem State.tick_draws (s : State) :
    (s.tick).draws = s.draws := rfl

@[simp] theorem State.tick_schedule (s : State) :
    (s.tick).schedule = laterSchedule 1 s.schedule := rfl

/-! ## accept -/

@[simp] theorem State.accept_params (s : State) (w : Word) (rest : List Word) :
    (s.accept w rest).params = s.params := rfl

@[simp] theorem State.accept_initFlag (s : State) (w : Word) (rest : List Word) :
    (s.accept w rest).initFlag = s.initFlag := rfl

@[simp] theorem State.accept_phase (s : State) (w : Word) (rest : List Word) :
    (s.accept w rest).phase = .busy w 0 [] := rfl

@[simp] theorem State.accept_readData (s : State) (w : Word) (rest : List Word) :
    (s.accept w rest).readData = s.readData := rfl

@[simp] theorem State.accept_port (s : State) (w : Word) (rest : List Word) :
    (s.accept w rest).port = rest := rfl

@[simp] theorem State.accept_responses (s : State) (w : Word) (rest : List Word) :
    (s.accept w rest).responses = s.responses := rfl

@[simp] theorem State.accept_log (s : State) (w : Word) (rest : List Word) :
    (s.accept w rest).log = s.log := rfl

@[simp] theorem State.accept_history (s : State) (w : Word) (rest : List Word) :
    (s.accept w rest).history = s.history := rfl

@[simp] theorem State.accept_busAnswers (s : State) (w : Word) (rest : List Word) :
    (s.accept w rest).busAnswers = s.busAnswers := rfl

@[simp] theorem State.accept_draws (s : State) (w : Word) (rest : List Word) :
    (s.accept w rest).draws = s.draws := rfl

@[simp] theorem State.accept_schedule (s : State) (w : Word) (rest : List Word) :
    (s.accept w rest).schedule = laterSchedule 1 s.schedule := rfl

/-! ## applyReset -/

@[simp] theorem State.applyReset_params (s : State) :
    (s.applyReset).params = s.params := rfl

@[simp] theorem State.applyReset_initFlag (s : State) :
    (s.applyReset).initFlag = false := rfl

@[simp] theorem State.applyReset_phase (s : State) :
    (s.applyReset).phase = .idle := rfl

@[simp] theorem State.applyReset_readData (s : State) :
    (s.applyReset).readData = 0 := rfl

@[simp] theorem State.applyReset_port (s : State) :
    (s.applyReset).port = s.port := rfl

@[simp] theorem State.applyReset_responses (s : State) :
    (s.applyReset).responses = [] := rfl

@[simp] theorem State.applyReset_log (s : State) :
    (s.applyReset).log = [] := rfl

@[simp] theorem State.applyReset_history (s : State) :
    (s.applyReset).history = s.history ++ [⟨s.log, s.responses⟩] := rfl

@[simp] theorem State.applyReset_busAnswers (s : State) :
    (s.applyReset).busAnswers = s.busAnswers := rfl

@[simp] theorem State.applyReset_draws (s : State) :
    (s.applyReset).draws = s.draws := rfl

@[simp] theorem State.applyReset_schedule (s : State) :
    (s.applyReset).schedule = s.schedule := rfl

/-! ## The phase -/

@[simp] theorem Phase.counted_idle : Phase.idle.counted = .idle := rfl

@[simp] theorem Phase.counted_busy (c : Word) (i : Nat) (todo : List Op) :
    (Phase.busy c i todo).counted = .busy c (i + 1) todo := rfl

@[simp] theorem Phase.at_idle (todo : List Op) : Phase.idle.at todo = .idle := rfl

@[simp] theorem Phase.at_busy (c : Word) (i : Nat) (t todo : List Op) :
    (Phase.busy c i t).at todo = .busy c i todo := rfl

/-! ## The schedule -/

@[simp] theorem laterSchedule_nil (n : Nat) : laterSchedule n [] = [] := rfl

@[simp] theorem laterSchedule_cons (n k : Nat) (e : EnvInput) (rest : List (Nat × EnvInput)) :
    laterSchedule n ((k, e) :: rest) = (k - n, e) :: rest := rfl

@[simp] theorem laterSchedule_zero (l : List (Nat × EnvInput)) : laterSchedule 0 l = l := by
  cases l <;> rfl

theorem laterSchedule_add (m n : Nat) (l : List (Nat × EnvInput)) :
    laterSchedule n (laterSchedule m l) = laterSchedule (m + n) l := by
  cases l with
  | nil => rfl
  | cons x rest => simp [laterSchedule, Nat.sub_sub]

end Sys2Proof.Machine
end

