-- ==== Sys2Proof/Laws/Ops.lean ====
section
/-! SUPPORT. What each shared operation can do, said once: one primitive, a run of primitives without an
outside input, a run that an outside input cuts, and what no run changes. -/

namespace Sys2Proof.Machine

/-! ## One primitive -/

@[simp] theorem State.perform_busWrite (s : State) (bytes : List Byte) :
    s.perform (.busWrite bytes) = s.emit (.W s.params.devAddr bytes) := rfl

@[simp] theorem State.perform_busWriteOld (s : State) (reg keep set : Byte) :
    s.perform (.busWriteOld reg keep set)
      = s.emit (.W s.params.devAddr [reg, (s.readData &&& keep) ||| set]) := rfl

@[simp] theorem State.perform_delay (s : State) (us : Nat) :
    s.perform (.delay us) = s.emit (.DLY us) := rfl

@[simp] theorem State.perform_setInitFlag (s : State) :
    s.perform .setInitFlag = { s with initFlag := true } := rfl

@[simp] theorem State.perform_respond (s : State) (st : Status) (d : Byte) :
    s.perform (.respond st d) = s.respond st d := rfl

@[simp] theorem State.perform_respondRead (s : State) :
    s.perform .respondRead = s.respond .ok s.readData := rfl

@[simp] theorem State.perform_params (s : State) (op : Op) :
    (s.perform op).params = s.params := by cases op <;> rfl

@[simp] theorem State.perform_port (s : State) (op : Op) :
    (s.perform op).port = s.port := by cases op <;> rfl

@[simp] theorem State.perform_history (s : State) (op : Op) :
    (s.perform op).history = s.history := by cases op <;> rfl

@[simp] theorem State.perform_schedule (s : State) (op : Op) :
    (s.perform op).schedule = s.schedule := by cases op <;> rfl

/-- A primitive appends to the log and never removes. -/
theorem State.perform_log_extends (s : State) (op : Op) :
    ∃ evs, (s.perform op).log = s.log ++ evs := by
  cases op with
  | setInitFlag => exact ⟨[], by simp⟩
  | respond st d => exact ⟨[], by simp⟩
  | respondRead => exact ⟨[], by simp⟩
  | busWrite bytes => exact ⟨_, rfl⟩
  | busWriteOld reg keep set => exact ⟨_, rfl⟩
  | busRead reg => exact ⟨_, rfl⟩
  | delay us => exact ⟨_, rfl⟩

/-- A primitive never clears the Initialization Flag. -/
theorem State.perform_keeps_initFlag (s : State) (op : Op) (h : s.initFlag = true) :
    (s.perform op).initFlag = true := by
  cases op <;> first | exact h | rfl

/-! ## Outside inputs -/

theorem State.inputDue_of_quietFor {s : State} {n : Nat} (h : s.quietFor (n + 1)) :
    s.inputDue = false := by
  cases hs : s.schedule with
  | nil => simp [State.inputDue, hs]
  | cons x rest =>
    obtain ⟨k, e⟩ := x
    cases k with
    | zero => simp [State.quietFor, hs] at h
    | succ k => simp [State.inputDue, hs]

theorem State.quietFor_of_schedule_eq {s t : State} (h : t.schedule = s.schedule) (n : Nat) :
    t.quietFor n ↔ s.quietFor n := by simp [State.quietFor, h]

theorem State.quietFor_tick {s : State} {n : Nat} (h : s.quietFor (n + 1)) :
    s.tick.quietFor n := by
  cases hs : s.schedule with
  | nil => simp [State.quietFor, hs]
  | cons x rest =>
    obtain ⟨k, e⟩ := x
    simp [State.quietFor, hs] at h ⊢
    omega

/-! ## A run of primitives -/

/-- The state after the primitives, each one move, with no outside input between them. -/
def performAll (l : List Op) (s : State) : State := l.foldl (fun t op => t.tick.perform op) s

@[simp] theorem performAll_nil (s : State) : performAll [] s = s := rfl

@[simp] theorem performAll_cons (op : Op) (l : List Op) (s : State) :
    performAll (op :: l) s = performAll l (s.tick.perform op) := rfl

theorem performAll_append (l m : List Op) (s : State) :
    performAll (l ++ m) s = performAll m (performAll l s) := by
  simp [performAll, List.foldl_append]

@[simp] theorem runOps_nil (s : State) : runOps [] s = { s with phase := s.phase.at [] } := rfl

theorem runOps_due {s : State} (op : Op) (rest : List Op) (h : s.inputDue = true) :
    runOps (op :: rest) s = { s with phase := s.phase.at (op :: rest) } := by
  simp [runOps, h]

theorem runOps_go {s : State} (op : Op) (rest : List Op) (h : s.inputDue = false) :
    runOps (op :: rest) s = runOps rest (s.tick.perform op) := by
  simp [runOps, h]

/-- A run that makes its first moves undisturbed goes on from the state after them. -/
theorem runOps_append_of_quiet (l m : List Op) (s : State) (h : s.quietFor l.length) :
    runOps (l ++ m) s = runOps m (performAll l s) := by
  induction l generalizing s with
  | nil => rfl
  | cons op l ih =>
    have hq : (s.tick.perform op).quietFor l.length :=
      (State.quietFor_of_schedule_eq (by simp) _).mpr (State.quietFor_tick h)
    simpa [runOps_go op (l ++ m) (State.inputDue_of_quietFor h)] using ih _ hq

/-- An undisturbed run performs all its primitives. -/
theorem runOps_quiet (l : List Op) (s : State) (h : s.quietFor l.length) :
    runOps l s = { performAll l s with phase := (performAll l s).phase.at [] } := by
  simpa using runOps_append_of_quiet l [] s h

theorem performAll_schedule (l : List Op) (s : State) :
    (performAll l s).schedule = laterSchedule l.length s.schedule := by
  induction l generalizing s with
  | nil => simp
  | cons op l ih => simp [ih, laterSchedule_add, Nat.add_comm]

/-- A run that an outside input cuts after `l` stops there, Busy, with `op :: rest` to do. -/
theorem runOps_cut (l : List Op) (op : Op) (rest : List Op) (s : State) (e : EnvInput)
    (later : List (Nat × EnvInput)) (h : s.schedule = (l.length, e) :: later) :
    runOps (l ++ op :: rest) s
      = { performAll l s with phase := (performAll l s).phase.at (op :: rest) } := by
  rw [runOps_append_of_quiet l (op :: rest) s (by simp [State.quietFor, h])]
  apply runOps_due
  simp [State.inputDue, performAll_schedule, h]

/-! ## What no run changes -/

theorem runOps_keeps (l : List Op) (s : State) :
    (runOps l s).params = s.params ∧ (runOps l s).port = s.port
      ∧ (runOps l s).history = s.history := by
  induction l generalizing s with
  | nil => exact ⟨rfl, rfl, rfl⟩
  | cons op l ih =>
    by_cases h : s.inputDue = true
    · simp [runOps_due op l h]
    · simpa [runOps_go op l (by simpa using h)] using ih (s.tick.perform op)

theorem runOps_log_extends (l : List Op) (s : State) :
    ∃ evs, (runOps l s).log = s.log ++ evs := by
  induction l generalizing s with
  | nil => exact ⟨[], by simp⟩
  | cons op l ih =>
    by_cases h : s.inputDue = true
    · exact ⟨[], by simp [runOps_due op l h]⟩
    · obtain ⟨a, ha⟩ := s.tick.perform_log_extends op
      obtain ⟨b, hb⟩ := ih (s.tick.perform op)
      exact ⟨a ++ b, by simp [runOps_go op l (by simpa using h), hb, ha]⟩

theorem runOps_keeps_initFlag (l : List Op) (s : State) (h : s.initFlag = true) :
    (runOps l s).initFlag = true := by
  induction l generalizing s with
  | nil => simpa using h
  | cons op l ih =>
    by_cases hd : s.inputDue = true
    · simpa [runOps_due op l hd] using h
    · rw [runOps_go op l (by simpa using hd)]
      exact ih _ (State.perform_keeps_initFlag _ op h)

/-- A command's run is a run of the primitives its pseudocode gives. -/
theorem runCommand_eq (pr : Proc) (s : State) :
    runCommand pr s = .next (runOps (pr s.initFlag).1 s) := rfl

/-! ## Pseudocode -/

@[simp] theorem Proc.ops_apply (l : List Op) (f : Bool) : Proc.ops l f = (l, f) := rfl

@[simp] theorem Proc.andThen_apply (a b : Proc) (f : Bool) :
    a.andThen b f = ((a f).1 ++ (b (a f).2).1, (b (a f).2).2) := rfl

@[simp] theorem Proc.inOrder_nil (f : Bool) : Proc.inOrder [] f = ([], f) := rfl

@[simp] theorem Proc.inOrder_cons (a : Proc) (rest : List Proc) (f : Bool) :
    Proc.inOrder (a :: rest) f = a.andThen (Proc.inOrder rest) f := rfl

end Sys2Proof.Machine
end

