-- ==== Sys2Proof/Laws/PerInstr.lean ====
section
/-! SUPPORT. Laws of every constructor of `Instr`: the word `encode` gives stands in the opcode map's row
of its own mnemonic, whatever the operands (spec/30_encoding.md R64, R69). -/

namespace Sys2Proof.Laws.EncodeRow

/-- The row of the opcode map a constructor stands for. -/
def row : Instr → OpcodeRow
  | .init => ⟨.INIT, 0x0100000000000000#64, 0xFFFFFFFFFFFFFFFF#64⟩
  | .setch _ _ _ => ⟨.SETCH, 0x0200000000000000#64, 0xFF0000000000FFFF#64⟩
  | .step _ _ => ⟨.STEP, 0x0300000000000000#64, 0xFFFEFFFEFFFFFFFF#64⟩
  | .servo _ => ⟨.SERVO, 0x0400000000000000#64, 0xFFFF0000FFFFFFFF#64⟩
  | .stopall => ⟨.STOPALL, 0x0500000000000000#64, 0xFFFFFFFFFFFFFFFF#64⟩
  | .setwin _ _ _ => ⟨.SETWIN, 0x1000000000000000#64, 0xFF0000000000FFFF#64⟩
  | .wrreg _ _ => ⟨.WRREG, 0x1100000000000000#64, 0xFF000000FFFFFFFF#64⟩
  | .wrcmd _ => ⟨.WRCMD, 0x1200000000000000#64, 0xFFFF0000FFFFFFFF#64⟩
  | .rdreg _ => ⟨.RDREG, 0x1300000000000000#64, 0xFF00FFFFFFFFFFFF#64⟩

/-- The constructor's row is a row of the opcode map, and the encoded word selects it. -/
def Statement (i : Instr) : Prop := row i ∈ opcodeTable ∧ (row i).selects (encode i) = true

theorem init : Statement .init := by
  refine ⟨by simp [row, opcodeTable], (selects_init _).mpr ?_⟩
  simp [encode]

theorem setch (ch on off : Nat) : Statement (.setch ch on off) := by
  refine ⟨by simp [row, opcodeTable], (selects_setch _).mpr ?_⟩
  simp [encode]

theorem step (p : Pair) (d : Dir) : Statement (.step p d) := by
  refine ⟨by simp [row, opcodeTable], (selects_step _).mpr ?_⟩
  cases p <;> cases d <;> simp [encode, pairBit, dirBit]

theorem servo (deg : Int) : Statement (.servo deg) := by
  refine ⟨by simp [row, opcodeTable], (selects_servo _).mpr ?_⟩
  simp [encode]

theorem stopall : Statement .stopall := by
  refine ⟨by simp [row, opcodeTable], (selects_stopall _).mpr ?_⟩
  simp [encode]

theorem setwin (ch on off : Nat) : Statement (.setwin ch on off) := by
  refine ⟨by simp [row, opcodeTable], (selects_setwin _).mpr ?_⟩
  simp [encode]

theorem wrreg (reg val : Nat) : Statement (.wrreg reg val) := by
  refine ⟨by simp [row, opcodeTable], (selects_wrreg _).mpr ?_⟩
  simp [encode]

theorem wrcmd (val : Nat) : Statement (.wrcmd val) := by
  refine ⟨by simp [row, opcodeTable], (selects_wrcmd _).mpr ?_⟩
  simp [encode]

theorem rdreg (reg : Nat) : Statement (.rdreg reg) := by
  refine ⟨by simp [row, opcodeTable], (selects_rdreg _).mpr ?_⟩
  simp [encode]

end Sys2Proof.Laws.EncodeRow
end

