-- ==== Sys2Proof/Laws/Procs.lean ====
section
/-! SUPPORT. The pseudocode of the commands, said once: the bytes of a window write, EnsureInit, the three
shapes a command's pseudocode has, and an undisturbed run after EnsureInit. -/

namespace Sys2Proof.Machine

/-! ## Bytes -/

theorem tlo_eq (v : Int) : tlo v = BitVec.ofInt 8 (v % 256) := by
  apply BitVec.eq_of_toNat_eq
  simp [tlo, enc16, BitVec.toNat_ofInt]
  omega

theorem thi_eq (v : Int) : thi v = BitVec.ofInt 8 (v / 256 % 256) := by
  apply BitVec.eq_of_toNat_eq
  simp [thi, enc16, BitVec.toNat_ofInt, Nat.shiftRight_eq_div_pow]
  omega

/-- The T-WIN event `Win` emits is the one R44 gives. -/
theorem window_event_eq (p : Params) (c : Nat) (on off : Int) :
    Event.W p.devAddr [channelReg p c, tlo on, thi on, tlo off, thi off]
      = windowWrite p c on off := by
  simp [windowWrite, tlo_eq, thi_eq, channelReg]

theorem and_allOnes_byte (b : Byte) : b &&& 255#8 = b := BitVec.and_allOnes

/-- Two channels of 0..15 have different registers: REG_BASE + 4·15 + 3 is within a byte (R42). -/
theorem channelReg_injective (p : Params) {c c' : Nat} (h : c ≤ 15) (h' : c' ≤ 15)
    (e : channelReg p c = channelReg p c') : c = c' := by
  have hb := p.regBase.isLt
  have he := congrArg BitVec.toNat e
  simp only [channelReg, BitVec.toNat_ofNat] at he
  omega

/-! ## Win -/

theorem win_of_le (p : Params) (ch : Nat) (on off : Int) (h : ch ≤ 15) :
    win p ch on off
      = Proc.ops [.busWrite [channelReg p ch, tlo on, thi on, tlo off, thi off]] := by
  have hn : ¬((ch : Int) < 0 ∨ (ch : Int) > 15) := by omega
  simp only [win, hn, if_false, Int.toNat_natCast]

theorem win_of_gt (p : Params) (ch : Nat) (on off : Int) (h : 15 < ch) :
    win p ch on off = Proc.ops [] := by
  have hn : (ch : Int) < 0 ∨ (ch : Int) > 15 := by omega
  simp only [win, hn, if_true]

/-- `Win` performs exactly the primitives R81 gives. -/
theorem win_eq_windowOps (p : Params) (c : Nat) (on off : Int) :
    win p c on off = Proc.ops (windowOps p c on off) := by
  by_cases h : c ≤ 15
  · simp [win_of_le p c on off h, windowOps, h, tlo_eq, thi_eq, channelReg]
  · simp [win_of_gt p c on off (by omega), windowOps, h]

/-- `Win` is window writes only: none or one. -/
theorem win_writes (p : Params) (ch on off : Int) :
    ∃ l : List Op, (∀ o ∈ l, ∃ bytes, o = .busWrite bytes) ∧ win p ch on off = Proc.ops l := by
  unfold win
  split
  · exact ⟨[], by simp, rfl⟩
  · exact ⟨[_], by simp, rfl⟩

theorem permChannel_le (p : Params) (q : Pair) (d : Dir) (k : Coil) : permChannel p q d k ≤ 7 := by
  have h := (((permTable p q).map d).pos k).isLt
  unfold permChannel groupBase
  split <;> omega

/-! ## EnsureInit -/

@[simp] theorem ensureInit_running (p : Params) : ensureInit p true = ([], true) := rfl

/-- EnsureInit leaves the flag set, whatever it was. -/
@[simp] theorem ensureInit_flag (p : Params) (f : Bool) : (ensureInit p f).2 = true := by
  cases f <;> rfl

/-- The primitives of EnsureInit on an Uninitialized block. -/
theorem ensureInit_uninitialized (p : Params) :
    ensureInit p false =
      ([ .busWrite [p.regMode, 0x00],
         .busRead p.regMode,
         .busWriteOld p.regMode 0x7F 0x10,
         .busWrite [p.regPrescale, 0x79],
         .busWriteOld p.regMode 0xFF 0x00,
         .delay 5000,
         .busWriteOld p.regMode 0xFF 0xA0,
         .setInitFlag ], true) := by
  have h : trunc8 (prescale 50) = 0x79 := by decide
  simp [ensureInit, setFrequency, regWrite, regRead, regWriteOld, setInitFlag, Config.F_PWM, h,
    Config.SETTLE_US, Config.MODE_CLEAR_BIT, Config.MODE_SLEEP_BIT, Config.MODE_RESTART_BITS]
  decide

/-- EnsureInit in both driver states. -/
theorem ensureInit_eq (p : Params) (f : Bool) :
    ensureInit p f = (if f then [] else initOps p, true) := by
  cases f
  · rw [ensureInit_uninitialized]; rfl
  · rfl

/-- The state after EnsureInit's eight primitives, undisturbed. -/
theorem performAll_ensureInit (s : State) :
    performAll (ensureInit s.params false).1 s =
      { s with
        initFlag := true
        log := s.log ++ initSeq s.params s.busAnswer
        phase := (performAll (ensureInit s.params false).1 s).phase
        readData := s.busAnswer
        busAnswers := s.busAnswers.tail
        draws := s.draws + 1
        schedule := laterSchedule 8 s.schedule } := by
  rw [ensureInit_uninitialized]
  simp [State.perform, State.emit, State.tick, State.busAnswer, initSeq, laterSchedule_add,
    and_allOnes_byte]

/-- After n moves, a schedule from which an input due at move n was taken out is what came after it. -/
@[simp] theorem laterSchedule_scheduleAfter (n : Nat) (rest : List (Nat × EnvInput)) :
    laterSchedule n (scheduleAfter n rest) = rest := by
  cases rest with
  | nil => rfl
  | cons x rest => rw [scheduleAfter, laterSchedule_cons, Nat.add_sub_cancel_left]

theorem quietFor_later {s t : State} {n m : Nat} (h : s.quietFor (n + m))
    (ht : t.schedule = laterSchedule n s.schedule) : t.quietFor m := by
  unfold State.quietFor at *
  rw [ht]
  cases hs : s.schedule with
  | nil => simp
  | cons x rest => simp only [hs, laterSchedule] at h ⊢; omega

theorem quietFor_mono {s : State} {n m : Nat} (h : s.quietFor n) (hm : m ≤ n) : s.quietFor m := by
  unfold State.quietFor at *
  cases hs : s.schedule with
  | nil => simp
  | cons x rest => simp only [hs] at h ⊢; omega

/-- A run that begins with EnsureInit, undisturbed: the initialization is done and the rest goes on. -/
theorem runOps_ensureInit (s : State) (l : List Op) (h : s.quietFor (initMoves s + l.length)) :
    ∃ ph, runOps ((ensureInit s.params s.initFlag).1 ++ l) s = runOps l
      { s with
        initFlag := true
        log := s.log ++ initEvents s
        phase := ph
        readData := if s.initFlag then s.readData else s.busAnswer
        busAnswers := s.busAnswers.drop (initReads s)
        draws := s.draws + initReads s
        schedule := laterSchedule (initMoves s) s.schedule } := by
  cases hf : s.initFlag with
  | true =>
    refine ⟨s.phase, ?_⟩
    simp only [ensureInit_running, initEvents, initReads, initMoves, hf, List.nil_append, if_true,
      List.append_nil, List.drop_zero, Nat.add_zero, laterSchedule_zero]
    rw [← hf]
  | false =>
    refine ⟨(performAll (ensureInit s.params false).1 s).phase, ?_⟩
    rw [runOps_append_of_quiet _ _ _ (quietFor_mono h (by simp [initMoves, hf,
      ensureInit_uninitialized])), performAll_ensureInit]
    simp [initEvents, initReads, initMoves, hf]

/-! ## The shapes of pseudocode -/

/-- Only plain bus writes. -/
def onlyWrites (l : List Op) : Prop := ∀ o ∈ l, ∃ bytes, o = .busWrite bytes

theorem onlyWrites_append {l m : List Op} (hl : onlyWrites l) (hm : onlyWrites m) :
    onlyWrites (l ++ m) := by
  intro o ho
  rcases List.mem_append.mp ho with h | h
  · exact hl o h
  · exact hm o h

/-- A command's pseudocode has one of three shapes: EnsureInit, plain writes and OK; plain writes and a
response, with no use of the flag; or one read that is answered. -/
inductive ProcShape (p : Params) (pr : Proc) : Prop where
  | driver (l : List Op) (hl : onlyWrites l)
      (h : ∀ f, pr f = ((ensureInit p f).1 ++ (l ++ [.respond .ok 0x00]), true))
  | raw (l : List Op) (hl : onlyWrites l) (st : Status)
      (h : ∀ f, pr f = (l ++ [.respond st 0x00], f))
  | read (reg : Byte) (h : ∀ f, pr f = ([.busRead reg, .respondRead], f))

/-- A driver-level procedure without its response: EnsureInit, then plain writes. -/
def DriverPart (p : Params) (pr : Proc) : Prop :=
  ∃ l, onlyWrites l ∧ ∀ f, pr f = ((ensureInit p f).1 ++ l, true)

theorem chan_driverPart (p : Params) (ch on off : Int) : DriverPart p (chan p ch on off) := by
  obtain ⟨l, hl, hw⟩ := win_writes p ch on off
  exact ⟨l, hl, fun f => by simp [chan, hw]⟩

theorem andThen_driverPart {p : Params} {a b : Proc} (ha : DriverPart p a) (hb : DriverPart p b) :
    DriverPart p (a.andThen b) := by
  obtain ⟨l, hl, ea⟩ := ha
  obtain ⟨m, hm, eb⟩ := hb
  exact ⟨l ++ m, onlyWrites_append hl hm, fun f => by simp [ea, eb]⟩

theorem inOrder_driverPart {p : Params} (l : List Proc) (hne : l ≠ [])
    (h : ∀ q ∈ l, DriverPart p q) : DriverPart p (Proc.inOrder l) := by
  induction l with
  | nil => exact absurd rfl hne
  | cons q l ih =>
    by_cases hl : l = []
    · subst hl
      obtain ⟨m, hm, e⟩ := h q (by simp)
      exact ⟨m, hm, fun f => by simp [e]⟩
    · exact andThen_driverPart (h q (by simp)) (ih hl fun r hr => h r (by simp [hr]))

theorem driverPart_shape {p : Params} {pr : Proc} (h : DriverPart p pr) :
    ProcShape p (pr.andThen respondOk) := by
  obtain ⟨l, hl, e⟩ := h
  exact .driver l hl fun f => by simp [e, respondOk]

/-- Every command has one of the three shapes. -/
theorem commandProc_shape (p : Params) (i : Instr) : ProcShape p (commandProc p i) := by
  cases i with
  | init =>
    refine driverPart_shape ⟨[], by simp [onlyWrites], fun f => ?_⟩
    rw [List.append_nil]
    exact Prod.ext rfl (ensureInit_flag p f)
  | setch ch on off => exact driverPart_shape (chan_driverPart p _ _ _)
  | step q d =>
    refine driverPart_shape (inOrder_driverPart _ (by simp [coils]) fun r hr => ?_)
    obtain ⟨k, -, rfl⟩ := List.mem_map.mp hr
    exact chan_driverPart p _ _ _
  | servo deg => exact driverPart_shape (chan_driverPart p _ _ _)
  | stopall =>
    refine driverPart_shape (inOrder_driverPart _ (by simp [motorIndices]) fun r hr => ?_)
    obtain ⟨k, -, rfl⟩ := List.mem_map.mp hr
    exact andThen_driverPart (chan_driverPart p _ _ _) (chan_driverPart p _ _ _)
  | setwin ch on off =>
    obtain ⟨l, hl, hw⟩ := win_writes p ch on off
    exact .raw l hl .ok fun f => by simp [commandProc, setwinProc, respondOk, hw]
  | wrreg reg val =>
    exact .raw [.busWrite [BitVec.ofNat 8 reg, trunc8 val]] (by simp [onlyWrites]) .ok fun _ => rfl
  | wrcmd val => exact .raw [.busWrite [trunc8 val]] (by simp [onlyWrites]) .ok fun _ => rfl
  | rdreg reg => exact .read (BitVec.ofNat 8 reg) fun _ => rfl

/-- Every accepted word, legal or not, has one of the three shapes. -/
theorem wordProc_shape (p : Params) (w : Word) : ProcShape p (wordProc p w) := by
  unfold wordProc
  split
  · exact commandProc_shape p _
  · exact .raw [] (by simp [onlyWrites]) .illegal fun _ => rfl

end Sys2Proof.Machine
end

