-- ==== Sys2Proof/Laws/Step.lean ====
section
/-! SUPPORT. The cases of one step, each with its equation, and the inversion of a step that answers a next
state. -/

namespace Sys2Proof.Machine

theorem inputDue_cons_zero {s : State} {e : EnvInput} {rest : List (Nat × EnvInput)}
    (h : s.schedule = (0, e) :: rest) : s.inputDue = true := by simp [State.inputDue, h]

theorem inputDue_true_iff (s : State) :
    s.inputDue = true ↔ ∃ e rest, s.schedule = (0, e) :: rest := by
  cases hs : s.schedule with
  | nil => simp [State.inputDue, hs]
  | cons x rest =>
    obtain ⟨k, e⟩ := x
    cases k <;> simp [State.inputDue, hs]

/-- What a step does when no outside input is due. -/
def undisturbed (s : State) : Host.Outcome State Fault Refusal :=
  match s.phase with
  | .busy _ _ [] => .fault .lostCommand
  | .busy _ _ (op :: rest) => .next (runOps (op :: rest) s)
  | .idle =>
    match s.port with
    | [] => .next s.tick
    | w :: rest =>
      match decode w with
      | .command i => exec i (s.accept w rest)
      | .illegal _ => .next (raiseIllegal (s.accept w rest))

theorem step_input {s : State} {e : EnvInput} {rest : List (Nat × EnvInput)}
    (h : s.schedule = (0, e) :: rest) : step s = .next (s.takeInput e rest) := by
  unfold step
  split
  · next e' rest' hs =>
    rw [h] at hs
    cases hs
    rfl
  · next hn => exact absurd h (hn e rest)

theorem step_undisturbed {s : State} (h : s.inputDue = false) : step s = undisturbed s := by
  unfold step
  split
  · next e rest hs => simp [inputDue_cons_zero hs] at h
  · rfl

theorem step_busy {s : State} {c : Word} {i : Nat} {op : Op} {rest : List Op}
    (h : s.inputDue = false) (hp : s.phase = .busy c i (op :: rest)) :
    step s = .next (runOps (op :: rest) s) := by
  rw [step_undisturbed h, undisturbed, hp]

theorem step_waits {s : State} (h : s.inputDue = false) (hp : s.phase = .idle)
    (hport : s.port = []) : step s = .next s.tick := by
  rw [step_undisturbed h, undisturbed, hp, hport]

theorem step_accepts_word {s : State} {w : Word} {rest : List Word}
    (h : s.inputDue = false) (hp : s.phase = .idle) (hport : s.port = w :: rest) :
    step s = match decode w with
      | .command i => exec i (s.accept w rest)
      | .illegal _ => .next (raiseIllegal (s.accept w rest)) := by
  rw [step_undisturbed h, undisturbed, hp, hport]

/-- Every arm of exec is a run of the primitives its pseudocode gives. -/
theorem exec_is_a_run (i : Instr) (s : State) : ∃ l, exec i s = .next (runOps l s) := by
  cases i <;> exact ⟨_, rfl⟩

/-- A step that answers a next state: an outside input, a run of primitives from the state itself or
from the state after an acceptance, or a wait. -/
theorem step_cases {s t : State} (h : step s = .next t) :
    (∃ e rest, s.schedule = (0, e) :: rest ∧ t = s.takeInput e rest)
      ∨ (s.inputDue = false ∧ ∃ c i op rest, s.phase = .busy c i (op :: rest)
          ∧ t = runOps (op :: rest) s)
      ∨ (s.inputDue = false ∧ s.phase = .idle ∧ s.port = [] ∧ t = s.tick)
      ∨ (s.inputDue = false ∧ s.phase = .idle
          ∧ ∃ w rest l, s.port = w :: rest ∧ t = runOps l (s.accept w rest)) := by
  cases hd : s.inputDue with
  | true =>
    obtain ⟨e, rest, hs⟩ := (inputDue_true_iff s).mp hd
    rw [step_input hs] at h
    cases h
    exact .inl ⟨e, rest, hs, rfl⟩
  | false =>
    rw [step_undisturbed hd] at h
    unfold undisturbed at h
    split at h
    · cases h
    · next c i op rest hp =>
      cases h
      exact .inr (.inl ⟨rfl, c, i, op, rest, hp, rfl⟩)
    · next hp =>
      split at h
      · next hport =>
        cases h
        exact .inr (.inr (.inl ⟨rfl, hp, hport, rfl⟩))
      · next w rest hport =>
        split at h
        · next i hdec =>
          obtain ⟨l, hl⟩ := exec_is_a_run i (s.accept w rest)
          rw [hl] at h
          cases h
          exact .inr (.inr (.inr ⟨rfl, hp, w, rest, l, hport, rfl⟩))
        · cases h
          exact .inr (.inr (.inr ⟨rfl, hp, w, rest, _, hport, rfl⟩))

end Sys2Proof.Machine
end

