-- ==== Sys2Proof/Laws/WellFormed.lean ====
section
/-! SUPPORT. The well-formedness of each command as its operand ranges. -/

namespace Sys2Proof

@[simp] theorem wellFormed_init : Instr.wellFormed .init = true := rfl

@[simp] theorem wellFormed_setch (ch on off : Nat) :
    Instr.wellFormed (.setch ch on off) = true ↔ ch ≤ 255 ∧ on ≤ 65535 ∧ off ≤ 65535 := by
  simp [Instr.wellFormed]

@[simp] theorem wellFormed_step (p : Pair) (d : Dir) : Instr.wellFormed (.step p d) = true := rfl

@[simp] theorem wellFormed_servo (deg : Int) :
    Instr.wellFormed (.servo deg) = true ↔ -32768 ≤ deg ∧ deg ≤ 32767 := by
  simp [Instr.wellFormed]

@[simp] theorem wellFormed_stopall : Instr.wellFormed .stopall = true := rfl

@[simp] theorem wellFormed_setwin (ch on off : Nat) :
    Instr.wellFormed (.setwin ch on off) = true ↔ ch ≤ 255 ∧ on ≤ 65535 ∧ off ≤ 65535 := by
  simp [Instr.wellFormed]

@[simp] theorem wellFormed_wrreg (reg val : Nat) :
    Instr.wellFormed (.wrreg reg val) = true ↔ reg ≤ 255 ∧ val ≤ 65535 := by
  simp [Instr.wellFormed]

@[simp] theorem wellFormed_wrcmd (val : Nat) :
    Instr.wellFormed (.wrcmd val) = true ↔ val ≤ 65535 := by
  simp [Instr.wellFormed]

@[simp] theorem wellFormed_rdreg (reg : Nat) :
    Instr.wellFormed (.rdreg reg) = true ↔ reg ≤ 255 := by
  simp [Instr.wellFormed]

end Sys2Proof
end

