-- ==== Sys2Proof/Tests/Slice0.lean ====
section
/-! SUPPORT. The model's own tests. Expected values are taken from spec/95_test_vectors.md and the examples
of the rules; each test names its source. The parameter values T and T' of spec/95_test_vectors.md
section 0 and 2.5 are used here only. The `witness_` theorems show that the hypotheses of the statements in
Certificates/Slice0/Obligations.lean can be met. -/

namespace Sys2Proof.Tests

open Sys2Proof Sys2Proof.Machine

/-! ## The test instantiation T -/

/-- T of spec/95_test_vectors.md section 0. -/
def T : Params :=
  { devAddr := 0x40
    regMode := 0x00
    regPrescale := 0xFE
    regBase := 6
    penCh := 15
    phaseWin := ⟨⟨0, 1023⟩, ⟨1024, 2047⟩, ⟨2048, 3071⟩, ⟨3072, 4095⟩⟩
    group := .pair1High
    perm1 := ⟨⟨0, 1, 2, 3⟩, ⟨3, 2, 1, 0⟩⟩
    perm2 := ⟨⟨0, 1, 2, 3⟩, ⟨3, 2, 1, 0⟩⟩ }

/-- T' of spec/95_test_vectors.md section 0: Pair1's reversal is a rotation by two. -/
def T' : Params := { T with perm1 := ⟨⟨0, 1, 2, 3⟩, ⟨2, 3, 0, 1⟩⟩ }

/-- An Uninitialized block, the bus answering b, with one word at its port. -/
def fresh (b : Byte) (w : Word) : State :=
  { State.reset with params := T, busAnswers := [b], port := [w] }

/-- A Running block with one word at its port. -/
def running (w : Word) : State := { State.reset with params := T, initFlag := true, port := [w] }

/-- A block that accepted the word w and has emitted nothing. -/
def accepted (w : Word) : State := { State.reset with params := T, phase := .busy w 0 [] }

/-- The log, the responses and the flag after a step. -/
def seen : Host.Outcome State Fault Refusal → Option (List Event × List Response × Bool)
  | .next t => some (t.log, t.responses, t.initFlag)
  | .fault _ => none
  | .refused _ => none

/-- A next state was answered. -/
def goesOn : Host.Outcome State Fault Refusal → Bool
  | .next _ => true
  | .fault _ => false
  | .refused _ => false

/-- A bus write to the address of T. -/
def W (bytes : List Byte) : Event := .W 0x40 bytes

/-- The response `(OK, 00)`. -/
def ok : List Response := [⟨.ok, 0⟩]

/-- INITSEQ(00) under T (V-INIT-1). -/
def initZero : List Event :=
  [W [0, 0], .WR 0x40 0 0, W [0, 0x10], W [0xFE, 0x79], W [0, 0], .DLY 5000, W [0, 0xA0]]

/-- The eight events of E7. -/
def zeroWindows : List Event :=
  [W [0x1E, 0, 0, 0, 0], W [0x22, 0, 0, 0, 0], W [0x16, 0, 0, 0, 0], W [0x1A, 0, 0, 0, 0],
    W [0x0E, 0, 0, 0, 0], W [0x12, 0, 0, 0, 0], W [0x06, 0, 0, 0, 0], W [0x0A, 0, 0, 0, 0]]

/-- T and T' meet R101. -/
theorem test_params_T : T.WellFormed ∧ T'.WellFormed := by decide

/-- R101 refuses a map that is no bijection, and a reversal that keeps a coil in its place. -/
theorem test_params_illegal :
    ¬ { T with perm1 := ⟨⟨0, 0, 2, 3⟩, ⟨3, 2, 1, 1⟩⟩ : Params }.WellFormed ∧
      ¬ { T with perm2 := ⟨⟨0, 1, 2, 3⟩, ⟨0, 2, 3, 1⟩⟩ : Params }.WellFormed := by decide

/-! ## WellFormed refuses an ill-formed term at each check (R63, R68) -/

theorem test_wf_setch_ch : (Instr.setch 256 0 0).wellFormed = false := by decide
theorem test_wf_setch_on : (Instr.setch 0 65536 0).wellFormed = false := by decide
theorem test_wf_setch_off : (Instr.setch 0 0 65536).wellFormed = false := by decide
theorem test_wf_servo_low : (Instr.servo (-32769)).wellFormed = false := by decide
theorem test_wf_servo_high : (Instr.servo 32768).wellFormed = false := by decide
theorem test_wf_setwin_ch : (Instr.setwin 256 0 0).wellFormed = false := by decide
theorem test_wf_setwin_on : (Instr.setwin 0 65536 0).wellFormed = false := by decide
theorem test_wf_setwin_off : (Instr.setwin 0 0 65536).wellFormed = false := by decide
theorem test_wf_wrreg_reg : (Instr.wrreg 256 0).wellFormed = false := by decide
theorem test_wf_wrreg_val : (Instr.wrreg 0 65536).wellFormed = false := by decide
theorem test_wf_wrcmd_val : (Instr.wrcmd 65536).wellFormed = false := by decide
theorem test_wf_rdreg_reg : (Instr.rdreg 256).wellFormed = false := by decide

/-- The largest operands are well formed. -/
theorem test_wf_largest :
    (Instr.setch 255 65535 65535).WellFormed ∧ (Instr.servo (-32768)).WellFormed ∧
      (Instr.servo 32767).WellFormed ∧ (Instr.wrreg 255 65535).WellFormed ∧
      (Instr.wrcmd 65535).WellFormed ∧ (Instr.rdreg 255).WellFormed := by decide

/-! ## Decode: words of spec/95_test_vectors.md 2.1 and of the bit layouts of R62 -/

theorem test_decode_init : decode 0x0100000000000000#64 = .command .init := by decide

theorem test_decode_setch :
    decode 0x0203000007FF0000#64 = .command (.setch 3 0 2047) ∧
      decode 0x020F0BB803E80000#64 = .command (.setch 15 3000 1000) := by decide

theorem test_decode_step :
    decode 0x0300000000000000#64 = .command (.step .pair1 .cw) ∧
      decode 0x0300000100000000#64 = .command (.step .pair1 .ccw) ∧
      decode 0x0301000000000000#64 = .command (.step .pair2 .cw) ∧
      decode 0x0301000100000000#64 = .command (.step .pair2 .ccw) := by decide

theorem test_decode_servo :
    decode 0x0400005A00000000#64 = .command (.servo 90) ∧
      decode 0x0400FFC300000000#64 = .command (.servo (-61)) ∧
      decode 0x0400800000000000#64 = .command (.servo (-32768)) := by decide

theorem test_decode_stopall : decode 0x0500000000000000#64 = .command .stopall := by decide

theorem test_decode_setwin :
    decode 0x10FF000100010000#64 = .command (.setwin 255 1 1) ∧
      decode 0x1002006400C80000#64 = .command (.setwin 2 100 200) := by decide

theorem test_decode_wrreg :
    decode 0x110001FF00000000#64 = .command (.wrreg 0 0x1FF) ∧
      decode 0x11FE007900000000#64 = .command (.wrreg 0xFE 121) := by decide

theorem test_decode_wrcmd : decode 0x1200010600000000#64 = .command (.wrcmd 0x106) := by decide

theorem test_decode_rdreg : decode 0x13FE000000000000#64 = .command (.rdreg 0xFE) := by decide

/-- R66 (a): OP 0x00, the gap 0x06 to 0x0F, and above 0x13. -/
theorem test_decode_unassigned :
    decode 0x0000000000000000#64 = .illegal .unassignedOpcode ∧
      decode 0x0600000000000000#64 = .illegal .unassignedOpcode ∧
      decode 0x0F00000000000000#64 = .illegal .unassignedOpcode ∧
      decode 0x1400000000000000#64 = .illegal .unassignedOpcode ∧
      decode 0xFFFFFFFFFFFFFFFF#64 = .illegal .unassignedOpcode := by decide

/-- R66 (b): the field Z, an unused field, and bits 55:49 and 47:33 of STEP. -/
theorem test_decode_reserved_bits :
    decode 0x0100000000000001#64 = .illegal .nonzeroReservedBit ∧
      decode 0x0100000000010000#64 = .illegal .nonzeroReservedBit ∧
      decode 0x0200000000000001#64 = .illegal .nonzeroReservedBit ∧
      decode 0x0302000000000000#64 = .illegal .nonzeroReservedBit ∧
      decode 0x0300000200000000#64 = .illegal .nonzeroReservedBit ∧
      decode 0x0401000000000000#64 = .illegal .nonzeroReservedBit ∧
      decode 0x0501000000000000#64 = .illegal .nonzeroReservedBit ∧
      decode 0x1000000000008000#64 = .illegal .nonzeroReservedBit ∧
      decode 0x1100000000010000#64 = .illegal .nonzeroReservedBit ∧
      decode 0x1201000000000000#64 = .illegal .nonzeroReservedBit ∧
      decode 0x1300000100000000#64 = .illegal .nonzeroReservedBit := by decide

/-- A word of more than 64 bits is no command word (R67). -/
theorem test_decodeTableWord :
    decodeTableWord 64 0x0400005A00000000 = some (.servo 90) ∧
      decodeTableWord 64 0x1400000000000000 = none ∧
      decodeTableWord 72 0x0400005A00000000 = none := by decide

/-! ## One step for each command -/

/-- E3 and V-INIT-1. -/
theorem test_init_uninitialized :
    seen (step (fresh 0x00 0x0100000000000000#64)) = some (initZero, ok, true) := by decide

/-- V-INIT-3: the mode byte read is 81. -/
theorem test_init_mode_byte :
    seen (step (fresh 0x81 0x0100000000000000#64)) =
      some ([W [0, 0], .WR 0x40 0 0x81, W [0, 0x11], W [0xFE, 0x79], W [0, 0x81], .DLY 5000,
        W [0, 0xA1]], ok, true) := by decide

/-- V-SETCH-4: the initialization comes before the channel check. -/
theorem test_setch_out_of_range_uninitialized :
    seen (step (fresh 0x00 0x0210000000000000#64)) = some (initZero, ok, true) := by decide

/-- V-SETCH-6: a wrap-around window on the last channel. -/
theorem test_setch_last_channel :
    seen (step (running 0x020F0BB803E80000#64)) =
      some ([W [0x42, 0xB8, 0x0B, 0xE8, 0x03]], ok, true) := by decide

/-- V-STEP-4. -/
theorem test_step_pair2_ccw :
    seen (step (running 0x0301000100000000#64)) =
      some ([W [0x12, 0, 0, 0xFF, 3], W [0x0E, 0, 4, 0xFF, 7], W [0x0A, 0, 8, 0xFF, 0xB],
        W [0x06, 0, 0xC, 0xFF, 0xF]], ok, true) := by decide

/-- V-STEP-6, under T'. -/
theorem test_step_rotation :
    seen (step { running 0x0300000100000000#64 with params := T' }) =
      some ([W [0x1E, 0, 0, 0xFF, 3], W [0x22, 0, 4, 0xFF, 7], W [0x16, 0, 8, 0xFF, 0xB],
        W [0x1A, 0, 0xC, 0xFF, 0xF]], ok, true) := by decide

/-- The row DEG = -61 of spec/95_test_vectors.md 2.6. -/
theorem test_servo_negative_tick :
    seen (step (running 0x0400FFC300000000#64)) =
      some ([W [0x42, 0, 0, 0xFD, 0xFF]], ok, true) := by decide

/-- The row DEG = 90, on an Uninitialized block. -/
theorem test_servo_uninitialized :
    seen (step (fresh 0x00 0x0400005A00000000#64)) =
      some (initZero ++ [W [0x42, 0, 0, 0x33, 1]], ok, true) := by decide

/-- V-STOP-1 and E7. -/
theorem test_stopall_running :
    seen (step (running 0x0500000000000000#64)) = some (zeroWindows, ok, true) := by decide

/-- V-STOP-2. -/
theorem test_stopall_uninitialized :
    seen (step (fresh 0x00 0x0500000000000000#64)) =
      some (initZero ++ zeroWindows, ok, true) := by decide

/-- V-SETWIN-5, on an Uninitialized block (R146). -/
theorem test_setwin_uninitialized :
    seen (step (fresh 0x00 0x1002006400C80000#64)) =
      some ([W [0x0E, 0x64, 0, 0xC8, 0]], ok, false) := by decide

/-- V-SETWIN-3: no event for channel 16. -/
theorem test_setwin_out_of_range :
    seen (step (running 0x1010000000000000#64)) = some ([], ok, true) := by decide

/-- V-WRREG-3. -/
theorem test_wrreg_truncates :
    seen (step (fresh 0x00 0x110001A100000000#64)) = some ([W [0, 0xA1]], ok, false) := by decide

/-- V-WRREG-4. -/
theorem test_wrreg_low_byte_zero :
    seen (step (running 0x1107FF0000000000#64)) = some ([W [7, 0]], ok, true) := by decide

/-- V-WRCMD-2. -/
theorem test_wrcmd_truncates :
    seen (step (running 0x1200010600000000#64)) = some ([W [6]], ok, true) := by decide

/-- V-RDREG-2. -/
theorem test_rdreg :
    seen (step (fresh 0x79 0x13FE000000000000#64)) =
      some ([.WR 0x40 0xFE 0x79], [⟨.ok, 0x79⟩], false) := by decide

/-- Spec/95_test_vectors.md 2.2: an illegal word of a driver-level opcode starts no initialization. -/
theorem test_illegal_word :
    seen (step (fresh 0x00 0x0100000000000001#64)) = some ([], [⟨.illegal, 0⟩], false) := by decide

/-- A word runs as the first step after reset, whatever the parameters and the bus answer. -/
theorem test_first_instruction :
    goesOn (step (State.reset.withFetchWord 64 0x0301000000000000)) = true ∧
      goesOn (step (State.reset.withFetchWord 64 0x0500000000000000)) = true ∧
      goesOn (step State.reset) = true := by decide

/-! ## An input inside a command: P6 of spec/95_test_vectors.md -/

/-- SERVO 90 with a reset due after six events: after the delay request, before its completion. -/
def cutServo : State := { fresh 0x00 0x0400005A00000000#64 with schedule := [(7, .reset)] }

/-- P6, step 1: six events, the flag still false, no response. -/
theorem test_p6_before_reset :
    seen (step cutServo) = some (initZero.take 6, [], false) := by decide

/-- What a reset leaves: the flag, the phase, the log and the history. -/
def leftByReset :
    Host.Outcome State Fault Refusal → Option (Bool × Phase × List Event × List Epoch)
  | .next t => some (t.initFlag, t.phase, t.log, t.history)
  | .fault _ => none
  | .refused _ => none

/-- The next step, after one that goes on. -/
def thenStep : Host.Outcome State Fault Refusal → Host.Outcome State Fault Refusal
  | .next t => step t
  | o => o

/-- P6, step 2: the log is empty, and the history keeps the six events. -/
theorem test_p6_reset :
    leftByReset (thenStep (step cutServo)) =
      some (false, .idle, [], [⟨initZero.take 6, []⟩]) := by decide

/-! ## Values -/

/-- E5, E9 and the table of R113. -/
theorem test_servo_ticks :
    servoTick 90 = 307 ∧ servoTick 30 = 184 ∧ servoTick 155 = 440 ∧ servoTick 0 = 122 ∧
      servoTick 180 = 491 ∧ servoTick (-61) = -3 ∧ servoTick 1940 = 4096 ∧
      servoTick 31940 = 65536 := by decide

/-- `lastWin` after E7: the zero window on channels 0 to 7 and none on 8. -/
theorem test_lastWin :
    lastWin T zeroWindows 0 = some (0, 0) ∧ lastWin T zeroWindows 7 = some (0, 0) ∧
      lastWin T zeroWindows 8 = none := by decide

/-! ## The host's side -/

/-- The words of P1: moveDistance(Forward, 15.2). -/
theorem test_moveDistance_words :
    hostWords (moveDistance .forward (152 / 10)) =
      [0x0300000100000000#64, 0x0301000000000000#64, 0x0500000000000000#64] := by
  simp [moveDistance, spinWheels, hostWords, Travel.dir, Dir.opp]
  decide

/-- E6: 3000 ms and 10000 ms. -/
theorem test_calibration : moveMs (152 / 10) = 3000 ∧ turnMs 692 = 10000 := by
  constructor <;> norm_num [moveMs, turnMs]

/-- R68: a line with a comment and hexadecimal numbers. -/
theorem test_asm_wrreg :
    assembleLine "  WRREG 0, 0x1FF ; mode".toList = .command (.wrreg 0 0x1FF) := by decide

/-- R68: names of pairs and directions, and a negative number. -/
theorem test_asm_step_servo :
    assembleLine "STEP Pair2, CCW".toList = .command (.step .pair2 .ccw) ∧
      assembleLine "SERVO -61".toList = .command (.servo (-61)) := by decide

/-- R68: an operand out of its range is an error and is never wrapped. -/
theorem test_asm_range :
    assembleLine "SETCH 256, 0, 0".toList = .error ∧
      assembleLine "SERVO 32768".toList = .error ∧ assembleLine "WRCMD -1".toList = .error := by
  decide

/-- A line that holds only a comment. -/
theorem test_asm_comment : assembleLine " ; nothing".toList = .blank := by decide

/-! ## Witnesses: the hypotheses of the statements can be met -/

theorem witness_DecodeUndoesEncode :
    (Instr.setch 255 65535 65535).WellFormed ∧ (Instr.servo (-32768)).WellFormed ∧
      (Instr.step .pair2 .ccw).WellFormed := by decide

theorem witness_EncodeUndoesDecode :
    decode 0x02FFFFFFFFFF0000#64 = .command (.setch 255 65535 65535) ∧
      decode 0x04007FFF00000000#64 = .command (.servo 32767) := by decide

theorem witness_EncodeIsTheShiftFormula :
    (255 ≤ 255 ∧ 65535 ≤ 65535) ∧ ((-32768 : Int) ≤ -32768 ∧ (-32768 : Int) ≤ 32767) := by decide

theorem witness_DecodeFollowsTheOpcodeMap :
    (∃ r ∈ opcodeTable, 0x1300000000000000#64 &&& r.mask = r.pattern) ∧
      ∀ r ∈ opcodeTable, 0x1400000000000000#64 &&& r.mask ≠ r.pattern := by decide

/-- One word for each of the three outcomes, at the edge of the assigned opcodes. -/
theorem witness_IllegalWordsExactly :
    decode 0x1400000000000000#64 = .illegal .unassignedOpcode ∧
      decode 0x1300800000000000#64 = .illegal .nonzeroReservedBit ∧
      decode 0x13FF000000000000#64 = .command (.rdreg 255) := by decide

theorem witness_StepRunsTheAcceptedCommand :
    (running 0x0500000000000000#64).inputDue = false ∧
      (running 0x0500000000000000#64).phase = .idle ∧
      (running 0x0500000000000000#64).port = 0x0500000000000000#64 :: [] ∧
      decode 0x0500000000000000#64 = .command .stopall := by decide

theorem witness_IllegalWordIsAnsweredIllegal :
    (running 0#64).quietFor 2 ∧ (running 0#64).phase = .idle ∧ (running 0#64).port = 0#64 :: [] ∧
      decode 0#64 = .illegal .unassignedOpcode := ⟨trivial, by decide⟩

theorem witness_IdleBlockWaitsAtItsPort :
    State.reset.inputDue = false ∧ State.reset.phase = .idle ∧ State.reset.port = [] :=
  ⟨rfl, rfl, rfl⟩

/-- A Busy block with a word waiting, which goes on. -/
theorem witness_BusyBlockAcceptsNoWord :
    ∃ s t : State, s.phase = .busy 0x1200000600000000#64 1 [.respond .ok 0] ∧
      s.port = [0x0100000000000000#64] ∧ step s = .next t :=
  ⟨{ running 0x0100000000000000#64 with
      phase := .busy 0x1200000600000000#64 1 [.respond .ok 0] }, _, rfl, rfl, rfl⟩

/-- A step that is no reset and no wait. -/
theorem witness_NoWordIsLostOrReordered : ∃ t, step (running 0x0500000000000000#64) = .next t :=
  ⟨_, rfl⟩

theorem witness_WaitingChangesNothing :
    { cutServo with schedule := [(0, .wait), (3, .reset)] : State }.schedule
      = (0, .wait) :: [(3, .reset)] := rfl

theorem witness_ResetFromEveryState :
    { cutServo with schedule := [(0, .reset)], phase := .busy 0#64 2 [] : State }.schedule
      = (0, .reset) :: [] := rfl

/-- The hypotheses of the nine completion statements on an Uninitialized block: SETWIN (with a window event
and without), WRREG, WRCMD and RDREG, INIT, SETCH, STEP, STOPALL, SERVO. -/
theorem witness_completion :
    (fresh 0x00 0#64).quietFor ((windowEvents T 15 3000 1000).length + 1) ∧
      (fresh 0x00 0#64).quietFor ((windowEvents T 16 0 0).length + 1) ∧
      (fresh 0x00 0#64).quietFor 2 ∧
      (fresh 0x00 0#64).quietFor (initMoves (fresh 0x00 0#64) + 1) ∧
      (fresh 0x00 0#64).quietFor
        (initMoves (fresh 0x00 0#64) + (windowEvents T 15 3000 1000).length + 1) ∧
      (fresh 0x00 0#64).quietFor (initMoves (fresh 0x00 0#64) + 5) ∧
      (fresh 0x00 0#64).quietFor (initMoves (fresh 0x00 0#64) + 9) ∧
      (fresh 0x00 0#64).quietFor (initMoves (fresh 0x00 0#64) + 2) := by
  simp [State.quietFor, fresh, State.reset]

/-- The same on a Running block, with an input that comes just after the longest command. -/
theorem witness_completion_before_input :
    { running 0#64 with schedule := [(17, .reset)] : State }.quietFor
      (initMoves (running 0#64) + 9) := by
  simp [State.quietFor, initMoves, running]

/-- The last channel with a window event and the first one without (SETWIN, SETCH). -/
theorem witness_windowEvents :
    windowEvents T 15 3000 1000 = [W [0x42, 0xB8, 0x0B, 0xE8, 0x03]] ∧
      windowEvents T 16 0 0 = [] := by decide

/-- A word of SETWIN's opcode with a nonzero bit in [15:0] (SetwinCompletes). -/
theorem witness_SetwinCompletes :
    (0x1000000000008000#64).extractLsb' 56 8 = 0x10 ∧
      (0x1000000000008000#64).extractLsb' 0 16 ≠ 0 := by decide

theorem witness_ReadAnswersAnyByte :
    (fresh 0x79 0#64).quietFor 2 ∧ (fresh 0x79 0#64).busAnswers = 0x79 :: [] := ⟨trivial, rfl⟩

/-- An input after the delay request of INIT: six primitives done, three to do. -/
theorem witness_InputLandsInsideACommand :
    { accepted 0x0100000000000000#64 with schedule := [(6, .wait)] : State }.phase
        = .busy 0x0100000000000000#64 0 [] ∧
      6 < ((commandProc T .init) false).1.length := ⟨rfl, by decide⟩

/-- A reset before the first primitive of WRCMD, and before its response. -/
theorem witness_ResetInsideACommandAbortsIt :
    { accepted 0x1200000600000000#64 with schedule := [(0, .reset)] : State }.phase
        = .busy 0x1200000600000000#64 0 [] ∧
      0 < ((commandProc T (.wrcmd 6)) false).1.length ∧
      1 < ((commandProc T (.wrcmd 6)) false).1.length := ⟨rfl, by decide, by decide⟩

/-- A wait inside STOPALL, with a reset due at once after it or three moves later. -/
theorem witness_WaitInsideACommandChangesNothing :
    { accepted 0x0500000000000000#64 with schedule := [(6, .wait), (0, .reset)] : State }.schedule
        = (6, .wait) :: [(0, .reset)] ∧
      { accepted 0x0500000000000000#64 with schedule := [(6, .wait), (3, .reset)] : State }.schedule
        = (6, .wait) :: [(3, .reset)] ∧
      scheduleAfter 6 [(3, .reset)] = [(9, .reset)] ∧
      6 < ((commandProc T .stopall) false).1.length := ⟨rfl, rfl, rfl, by decide⟩

/-- Idle, Uninitialized: the invariant right after reset, from where a step goes on. -/
theorem witness_EveryStepKeepsTheInvariant :
    BlockInvariant State.reset ∧ ∃ t, step State.reset = .next t :=
  ⟨⟨rfl, .atReset⟩, _, rfl⟩

/-- A Running block after its first INIT, the bus having answered 00. -/
def afterInit : State :=
  { State.reset with params := T, initFlag := true, log := initZero, responses := ok }

/-- Idle, Running: one INIT has been served. -/
theorem afterInit_invariant : BlockInvariant afterInit := by
  refine ⟨rfl, ?_⟩
  have h := Served.word (p := T) 0x0100000000000000#64 0x00 .atReset
  have hf : (wordProc T 0x0100000000000000#64 false).2 = true := by decide
  have hl : [] ++ opEvents T 0x00 (wordProc T 0x0100000000000000#64 false).1 = initZero := by decide
  have hr : [] ++ [wordResponse 0x0100000000000000#64 0x00] = ok := by decide
  rwa [hf, hl, hr] at h

theorem witness_RunningBlockWasInitialized : BlockInvariant afterInit ∧ afterInit.initFlag = true :=
  ⟨afterInit_invariant, rfl⟩

/-- A Busy block inside WRCMD, one event emitted and the response still to give. -/
def busyWrcmd : State :=
  { State.reset with
    params := T
    phase := .busy 0x1200000600000000#64 1 [.respond .ok 0x00]
    log := [W [6]] }

theorem witness_BlockNeverStops : BlockInvariant busyWrcmd :=
  ⟨false, [], 0x00, [.busWrite [6]],
    { served := .atReset
      split := by decide
      unfinished := by decide
      log_eq := by decide
      count_eq := by decide
      flag_eq := by decide
      read_eq := by decide }⟩

/-- A log with an initialization sequence, and a Running block about to run a driver-level command. -/
theorem witness_AtMostOneInitialization :
    (BlockInvariant afterInit ∧ afterInit.log = [] ++ initSeq T 0x00 ++ []) ∧
      BlockInvariant { afterInit with port := [0x0500000000000000#64] } ∧
      afterInit.initFlag = true ∧
      { afterInit with port := [0x0500000000000000#64] : State }.current
        = some 0x0500000000000000#64 ∧
      decode 0x0500000000000000#64 = .command .stopall ∧ initializes .stopall = true ∧
      ∃ t, step { afterInit with port := [0x0500000000000000#64] } = .next t :=
  ⟨⟨afterInit_invariant, by decide⟩, afterInit_invariant, rfl, rfl, by decide, rfl, _, rfl⟩

theorem witness_EveryEventHasItsFormat :
    BlockInvariant busyWrcmd ∧ W [6] ∈ busyWrcmd.log := ⟨witness_BlockNeverStops, by decide⟩

/-- A reset that clears the flag. -/
theorem witness_OnlyResetClearsTheFlag :
    ∃ t, step { running 0#64 with schedule := [(0, .reset)] } = .next t ∧
      (running 0#64).initFlag = true ∧ t.initFlag = false := ⟨_, rfl, rfl, rfl⟩

/-- A command that changes the flag, and a step from a state that meets the invariant. -/
theorem witness_FlagChangesOnlyInsideEnsureInit :
    (∃ t, exec .init (fresh 0x00 0#64) = .next t ∧ (fresh 0x00 0#64).initFlag = false ∧
      t.initFlag = true) ∧
    BlockInvariant (fresh 0x00 0x0100000000000000#64) ∧
      ∃ t, step (fresh 0x00 0x0100000000000000#64) = .next t ∧
        t.initFlag ≠ (fresh 0x00 0x0100000000000000#64).initFlag :=
  ⟨⟨_, rfl, rfl, rfl⟩, ⟨rfl, .atReset⟩, _, rfl, by decide⟩

/-- The four raw commands (RawCommandsIgnoreTheFlag), one of them. -/
theorem witness_RawCommandsIgnoreTheFlag :
    match Instr.rdreg 0 with
      | .setwin _ _ _ | .wrreg _ _ | .wrcmd _ | .rdreg _ => True
      | _ => False := trivial

/-- A step that resets, from a block with a log. -/
theorem witness_LogOnlyGrows :
    ∃ t, step { afterInit with schedule := [(0, .reset)] } = .next t ∧ t.log = [] :=
  ⟨_, rfl, rfl⟩

/-- The same step gives the trace its marker. -/
theorem witness_TraceOnlyGrows :
    ∃ t, step { afterInit with schedule := [(0, .reset)] } = .next t ∧
      t.trace = afterInit.trace ++ [.resetMark] := ⟨_, rfl, by decide⟩

/-- A command and a reset both go on. -/
theorem witness_ParametersNeverChange :
    (∃ t, step (running 0x0500000000000000#64) = .next t ∧ t.params = T) ∧
      ∃ t, step { afterInit with schedule := [(0, .reset)] } = .next t ∧ t.params = T :=
  ⟨⟨_, rfl, rfl⟩, _, rfl, rfl⟩

theorem witness_LegalCommandsRespondOk :
    (∃ t, exec .init (fresh 0x00 0#64) = .next t ∧ (fresh 0x00 0#64).noIllegal = true) ∧
      BlockInvariant busyWrcmd ∧ busyWrcmd.phase = .busy 0x1200000600000000#64 1 [.respond .ok 0x00] ∧
      decode 0x1200000600000000#64 = .command (.wrcmd 6) ∧ busyWrcmd.inputDue = false ∧
      ∃ t, step busyWrcmd = .next t :=
  ⟨⟨_, rfl, by decide⟩, witness_BlockNeverStops, rfl, by decide, rfl, _, rfl⟩

/-- A command that an input cuts has not responded, and the input is due. -/
theorem test_cut_command_waits :
    ∃ t, exec .stopall { accepted 0x0500000000000000#64 with schedule := [(6, .wait)] } = .next t ∧
      t.responses = [] ∧ t.inputDue = true := ⟨_, rfl, rfl, rfl⟩

theorem witness_AtMostOneResponseAStep :
    BlockInvariant busyWrcmd ∧ ∃ t, step busyWrcmd = .next t ∧ t.responses = ok :=
  ⟨witness_BlockNeverStops, _, rfl, rfl⟩

theorem witness_ByteFunctions : (0 : Int) ≤ 4095 ∧ (4095 : Int) ≤ 4095 := by decide

theorem witness_PrescalerFormula : 0 < 50 := by decide

/-- The edges of the channels and of the bit numbers in MotorChannels and ModeByteBits. -/
theorem witness_MotorChannels : 0 < 8 ∧ 7 < 8 := by decide

theorem witness_ModeByteBits : 6 < 8 ∧ 6 ≠ 4 ∧ 6 ≠ 7 ∧ 6 ≠ 5 := by decide

/-- ServoTickRange: the edges of the in-range degrees and of the recommended range. -/
theorem witness_ServoTickRange :
    servoTick (-60) = 0 ∧ servoTick (-61) = -3 ∧ servoTick 1939 = 4093 ∧ servoTick 1940 = 4096 ∧
      (30 : Int) < 155 := by decide

/-- The edges of the in-range degrees and of the aliases. -/
theorem witness_ServoBytesOutOfRange :
    (enc16 (servoTick (-32061))).toNat = 65533 ∧ (enc16 (servoTick (-32060))).toNat = 0 ∧
      (enc16 (servoTick (-30061))).toNat = 4093 ∧ (enc16 (servoTick (-30060))).toNat = 4096 ∧
      (enc16 (servoTick (-2060))).toNat = 61440 ∧ (enc16 (servoTick 31939)).toNat = 65533 ∧
      (enc16 (servoTick 31940)).toNat = 0 := by decide

theorem witness_StepCoversItsGroupOnce :
    T.WellFormed ∧ Pair.pair2 ≠ Pair.pair1 ∧ 4 ∈ groupChannels T .pair1 := by decide

theorem witness_DirectionReversal :
    (fresh 0x00 0#64).params.WellFormed ∧
      (fresh 0x00 0#64).quietFor (initMoves (fresh 0x00 0#64) + 10) := ⟨by decide, trivial⟩

theorem witness_LastWindowsAfterStopall :
    (running 0#64).quietFor (initMoves (running 0#64) + 9) ∧ 7 < 8 ∧ 8 ≤ 8 ∧ 15 ≤ 15 :=
  ⟨trivial, by decide⟩

theorem witness_LastWindowAfterSetch :
    15 ≤ 15 ∧ 65535 ≤ 65535 ∧ (running 0#64).quietFor (initMoves (running 0#64) + 2) ∧ 0 ≠ 15 :=
  ⟨by decide, by decide, trivial, by decide⟩

/-- Each range at its two ends and just outside it, and operand lists of the wrong shape. -/
theorem witness_AssemblerKeepsTheRanges :
    assembleParts .SETCH [.num 255, .num 65535, .num 0] = .command (.setch 255 65535 0) ∧
      assembleParts .SETCH [.num 256, .num 0, .num 0] = .error ∧
      assembleParts .SETWIN [.num 0, .num (-1), .num 0] = .error ∧
      assembleParts .SERVO [.num (-32768)] = .command (.servo (-32768)) ∧
      assembleParts .SERVO [.num 32768] = .error ∧
      assembleParts .WRREG [.num 0, .num 65536] = .error ∧
      assembleParts .WRCMD [.num (-1)] = .error ∧ assembleParts .RDREG [.num 256] = .error ∧
      assembleParts .STEP [.dir .cw, .pair .pair1] = .error ∧ assembleParts .SERVO [] = .error ∧
      assembleLine "RDREG 255".toList = .command (.rdreg 255) ∧
      (Instr.servo (-32768)).WellFormed := by decide

end Sys2Proof.Tests
end

section
/-! PROOFS. The byte functions of spec/00_scope.md R9 as residues and quotients. -/

namespace Sys2Proof.Machine

/-! ## The byte functions as numbers (R9) -/

theorem toNat_ofInt_eq_emod (n : Nat) (v : Int) : ((BitVec.ofInt n v).toNat : Int) = v % 2 ^ n := by
  have h : 0 ≤ v % 2 ^ n := Int.emod_nonneg v (by positivity)
  simp [BitVec.toNat_ofInt, h]

theorem lo8_toNat (v : Int) : ((lo8 v).toNat : Int) = v % 256 := toNat_ofInt_eq_emod 8 v

theorem enc16_toNat (v : Int) : ((enc16 v).toNat : Int) = v % 65536 := toNat_ofInt_eq_emod 16 v

theorem tlo_toNat (v : Int) : (tlo v).toNat = (enc16 v).toNat % 256 := by
  simp [tlo]

/-- The high byte is the whole quotient: a 16-bit value divided by 256 is within a byte. -/
theorem thi_toNat (v : Int) : (thi v).toNat = (enc16 v).toNat / 256 := by
  have h : (enc16 v).toNat / 256 < 256 := by have := (enc16 v).isLt; omega
  simp [thi, Nat.shiftRight_eq_div_pow, Nat.mod_eq_of_lt h]

/-- The two bytes a window write sends are the 16-bit value, low byte first (R43). -/
theorem tlo_add_thi (v : Int) : (tlo v).toNat + 256 * (thi v).toNat = (enc16 v).toNat := by
  rw [tlo_toNat, thi_toNat, Nat.mod_add_div]

/-- `enc16` keeps a value that fits in its 16 bits. -/
theorem enc16_toNat_of_lt {v : Int} (h0 : 0 ≤ v) (h : v < 65536) : ((enc16 v).toNat : Int) = v := by
  rw [enc16_toNat, Int.emod_eq_of_lt h0 h]

theorem highNibble_eq_zero_of_lt {b : Byte} (h : b.toNat < 16) : b.extractLsb' 4 4 = 0 := by
  apply BitVec.eq_of_toNat_eq
  simp [Nat.shiftRight_eq_div_pow, Nat.div_eq_of_lt h]

/-- A 12-bit value leaves bits 7:4 of its high byte 0. -/
theorem thi_highNibble_eq_zero {v : Int} (h0 : 0 ≤ v) (h : v ≤ 4095) :
    (thi v).extractLsb' 4 4 = 0 := by
  have henc := enc16_toNat_of_lt h0 (by omega)
  apply highNibble_eq_zero_of_lt
  rw [thi_toNat]
  omega

/-- Settles O45: each byte function is a residue or a quotient of its argument, and the two bytes of a
value of 0..4095 put the value together again. -/
theorem byteFunctions : Obligations.ByteFunctions := by
  refine ⟨fun v => ⟨lo8_toNat v, rfl, enc16_toNat v, ?_, ?_⟩,
    fun v h0 h => ⟨?_, thi_highNibble_eq_zero h0 h⟩⟩
  · rw [tlo_toNat, Int.natCast_mod, enc16_toNat]; rfl
  · rw [thi_toNat, Int.natCast_div, enc16_toNat]; rfl
  · have henc := enc16_toNat_of_lt h0 (by omega)
    have hbytes := tlo_add_thi v
    omega

end Sys2Proof.Machine
end

section
/-! PROOFS. The order a command's primitives stand in, and what performing a first part of them leaves:
the log, the count of events, the flag, the byte read and the responses (spec/10_state.md R23, R25, R26). -/

namespace Sys2Proof.Machine

/-! ## Every command is a run of its pseudocode -/

theorem exec_eq (i : Instr) (s : State) :
    exec i s = .next (runOps (commandProc s.params i s.initFlag).1 s) := by
  cases i <;> rfl

/-- Acceptance and the run of the accepted word, legal or not. -/
theorem step_accepts {s : State} {w : Word} {rest : List Word} (hd : s.inputDue = false)
    (hp : s.phase = .idle) (hport : s.port = w :: rest) :
    step s = .next (runOps (wordProc s.params w s.initFlag).1 (s.accept w rest)) := by
  rw [step_accepts_word hd hp hport, wordProc]
  cases decode w with
  | command i => exact exec_eq i _
  | illegal why => rfl

/-! ## The order of a command's primitives -/

/-- What may still stand in a command whose read was made (`true`) or not (`false`): at most one read,
the byte it returns used only after it, and one response, at the end. -/
inductive WellOrdered : Bool → List Op → Prop where
  | busWrite {r : Bool} {l : List Op} (bytes : List Byte) :
      WellOrdered r l → WellOrdered r (.busWrite bytes :: l)
  | delay {r : Bool} {l : List Op} (us : Nat) : WellOrdered r l → WellOrdered r (.delay us :: l)
  | setInitFlag {r : Bool} {l : List Op} : WellOrdered r l → WellOrdered r (.setInitFlag :: l)
  | busRead {l : List Op} (reg : Byte) : WellOrdered true l → WellOrdered false (.busRead reg :: l)
  | busWriteOld {l : List Op} (reg keep set : Byte) :
      WellOrdered true l → WellOrdered true (.busWriteOld reg keep set :: l)
  | respond {r : Bool} (st : Status) (d : Byte) : WellOrdered r [.respond st d]
  | respondRead : WellOrdered true [.respondRead]

theorem WellOrdered.ne_nil {r : Bool} {l : List Op} (h : WellOrdered r l) : l ≠ [] := by
  cases h <;> exact List.cons_ne_nil _ _

theorem WellOrdered.writes_append {r : Bool} {l m : List Op} (hl : onlyWrites l)
    (hm : WellOrdered r m) : WellOrdered r (l ++ m) := by
  induction l with
  | nil => exact hm
  | cons o l ih =>
    obtain ⟨bytes, rfl⟩ := hl o (by simp)
    exact .busWrite bytes (ih fun x hx => hl x (by simp [hx]))

theorem WellOrdered.ensureInit_append (p : Params) (f : Bool) {m : List Op}
    (hm : ∀ r, WellOrdered r m) : WellOrdered false ((ensureInit p f).1 ++ m) := by
  rw [ensureInit_eq]
  cases f with
  | true => exact hm false
  | false =>
    exact .busWrite _ (.busRead _ (.busWriteOld _ _ _ (.busWrite _ (.busWriteOld _ _ _ (.delay _
      (.busWriteOld _ _ _ (.setInitFlag (hm true))))))))

theorem ProcShape.wellOrdered {p : Params} {pr : Proc} (h : ProcShape p pr) (f : Bool) :
    WellOrdered false (pr f).1 := by
  cases h with
  | driver l hl h =>
    rw [h f]
    exact .ensureInit_append p f fun r => .writes_append hl (.respond .ok 0x00)
  | raw l hl st h =>
    rw [h f]
    exact .writes_append hl (.respond st 0x00)
  | read reg h =>
    rw [h f]
    exact .busRead reg .respondRead

theorem commandProc_wellOrdered (p : Params) (i : Instr) (f : Bool) :
    WellOrdered false (commandProc p i f).1 := (commandProc_shape p i).wellOrdered f

theorem wordProc_wellOrdered (p : Params) (w : Word) (f : Bool) :
    WellOrdered false (wordProc p w f).1 := (wordProc_shape p w).wellOrdered f

/-- What is left of a command after one primitive that is not its last. -/
theorem WellOrdered.tail {r : Bool} {op : Op} {l : List Op} (h : WellOrdered r (op :: l))
    (hl : l ≠ []) : WellOrdered (r || op.isRead) l := by
  cases h with
  | busWrite _ h | delay _ h | setInitFlag h | busRead _ h | busWriteOld _ _ _ h =>
    simpa [Op.isRead] using h
  | respond | respondRead => exact absurd rfl hl

/-- What is left of a command after a first part of it. -/
theorem WellOrdered.of_append {r : Bool} {a b : List Op} (h : WellOrdered r (a ++ b))
    (hb : b ≠ []) : WellOrdered (r || a.any Op.isRead) b := by
  induction a generalizing r with
  | nil => simpa using h
  | cons op a ih =>
    have h' := ih (h.tail (by simp [hb]))
    rwa [Bool.or_assoc] at h'

/-- The events before the read do not depend on the byte it will return. -/
theorem WellOrdered.opEvents_eq_of_unread {a b : List Op} (h : WellOrdered false (a ++ b))
    (hb : b ≠ []) (hr : a.any Op.isRead = false) (p : Params) (d d' : Byte) :
    opEvents p d a = opEvents p d' a := by
  induction a with
  | nil => rfl
  | cons op a ih =>
    rw [List.any_cons, Bool.or_eq_false_iff] at hr
    obtain ⟨hop, ha⟩ := hr
    have hrest := ih (by simpa [hop] using h.tail (by simp [hb])) ha
    cases op with
    | busRead => simp [Op.isRead] at hop
    | busWriteOld => nomatch h
    | _ => simp [hrest]

/-! ## A first part of a command, performed -/

/-- The byte the read of the command in flight returned, or the one it will return. -/
def State.readByte (s : State) (r : Bool) : Byte := if r then s.readData else s.busAnswer

/-- `t` is the state `s` has become after the primitives `done`, none of them a response; `r` says
whether the command's read was made before them. -/
structure Performed (s t : State) (r : Bool) (done : List Op) : Prop where
  params_eq : t.params = s.params
  port_eq : t.port = s.port
  history_eq : t.history = s.history
  responses_eq : t.responses = s.responses
  log_eq : t.log = s.log ++ opEvents s.params (s.readByte r) done
  phase_eq : ∀ c k todo, s.phase = .busy c k todo →
    t.phase = .busy c (k + (opEvents s.params (s.readByte r) done).length) todo
  flag_eq : t.initFlag = (s.initFlag || done.contains .setInitFlag)
  read_eq : t.readData = if done.any Op.isRead then s.readByte r else s.readData
  readByte_eq : t.readByte (r || done.any Op.isRead) = s.readByte r

theorem performed_nil (s : State) (r : Bool) : Performed s s r [] := by
  constructor <;> simp

/-- One primitive that is not the command's last. -/
theorem performed_perform {s : State} {r : Bool} {op : Op} {l : List Op}
    (h : WellOrdered r (op :: l)) (hl : l ≠ []) : Performed s (s.tick.perform op) r [op] := by
  cases h with
  | busWrite | delay | setInitFlag =>
    constructor <;> simp +contextual [State.readByte, State.busAnswer, Op.isRead]
  | busRead =>
    constructor <;>
      simp +contextual [State.perform, State.readByte, State.busAnswer, Op.isRead]
  | busWriteOld => constructor <;> simp +contextual [State.readByte, Op.isRead]
  | respond | respondRead => exact absurd rfl hl

theorem Performed.trans {s t u : State} {r : Bool} {a b : List Op} (ht : Performed s t r a)
    (hu : Performed t u (r || a.any Op.isRead) b) : Performed s u r (a ++ b) where
  params_eq := hu.params_eq.trans ht.params_eq
  port_eq := hu.port_eq.trans ht.port_eq
  history_eq := hu.history_eq.trans ht.history_eq
  responses_eq := hu.responses_eq.trans ht.responses_eq
  log_eq := by simp [hu.log_eq, ht.log_eq, ht.params_eq, ht.readByte_eq]
  phase_eq c k todo hs := by
    simp [hu.phase_eq _ _ _ (ht.phase_eq _ _ _ hs), ht.params_eq, ht.readByte_eq, Nat.add_assoc]
  flag_eq := by simp [hu.flag_eq, ht.flag_eq, Bool.or_assoc]
  read_eq := by
    rw [hu.read_eq, ht.read_eq, ht.readByte_eq, List.any_append]
    cases a.any Op.isRead <;> cases b.any Op.isRead <;> rfl
  readByte_eq := by
    rw [List.any_append, ← Bool.or_assoc, hu.readByte_eq, ht.readByte_eq]

/-- What a first part of a command leaves, undisturbed. -/
theorem performed_performAll {s : State} {r : Bool} {a b : List Op} (h : WellOrdered r (a ++ b))
    (hb : b ≠ []) : Performed s (performAll a s) r a := by
  induction a generalizing s r with
  | nil => exact performed_nil s r
  | cons op a ih =>
    have hrest : a ++ b ≠ [] := by simp [hb]
    exact (performed_perform h hrest).trans (ih (by simpa using h.tail hrest))

/-- A run ends in one of two ways: cut, with an outside input due and a part still to do, or after its
last primitive. -/
theorem runOps_cases {l : List Op} (hl : l ≠ []) (s : State) :
    (∃ a op b, l = a ++ op :: b ∧ (performAll a s).inputDue = true
        ∧ runOps l s = { performAll a s with phase := (performAll a s).phase.at (op :: b) })
      ∨ ∃ a op, l = a ++ [op] ∧ runOps l s = runOps [] ((performAll a s).tick.perform op) := by
  induction l generalizing s with
  | nil => exact absurd rfl hl
  | cons op l ih =>
    cases hd : s.inputDue with
    | true => exact .inl ⟨[], op, l, rfl, hd, runOps_due op l hd⟩
    | false =>
      rw [runOps_go op l hd]
      by_cases hnil : l = []
      · subst hnil
        exact .inr ⟨[], op, rfl, rfl⟩
      · rcases ih hnil (s.tick.perform op) with ⟨a, o, b, rfl, hdue, hrun⟩ | ⟨a, o, rfl, hrun⟩
        · exact .inl ⟨op :: a, o, b, rfl, hdue, hrun⟩
        · exact .inr ⟨op :: a, o, rfl, hrun⟩

/-- A command's last primitive is its response. -/
theorem WellOrdered.perform_last {r : Bool} {op : Op} (h : WellOrdered r [op]) (s : State) :
    ∃ x : Response, s.perform op = s.respond x.status x.data := by
  cases h with
  | respond st d => exact ⟨⟨st, d⟩, rfl⟩
  | respondRead => exact ⟨⟨.ok, s.readData⟩, rfl⟩
  | busWrite _ h | delay _ h | setInitFlag h | busRead _ h | busWriteOld _ _ _ h =>
    exact absurd rfl h.ne_nil

/-- A run inside a command gives one response or none. -/
theorem WellOrdered.runOps_responses {r : Bool} {l : List Op} (h : WellOrdered r l) (s : State) :
    (runOps l s).responses = s.responses ∨ ∃ x, (runOps l s).responses = s.responses ++ [x] := by
  rcases runOps_cases h.ne_nil s with ⟨a, op, b, rfl, -, hrun⟩ | ⟨a, op, rfl, hrun⟩
  · rw [hrun]
    exact .inl (performed_performAll h (by simp)).responses_eq
  · obtain ⟨x, hx⟩ := (h.of_append (by simp)).perform_last (performAll a s).tick
    rw [hrun, hx]
    exact .inr ⟨x, by simp [(performed_performAll (s := s) h (by simp)).responses_eq]⟩

end Sys2Proof.Machine
end

section
/-! PROOFS. What every step of the block keeps, from any state (spec/10_state.md R22 to R33). -/

namespace Sys2Proof.Machine

/-! ## What a step keeps -/

/-- A step leaves the port, or is an Idle block's acceptance of its first word (R24). -/
theorem step_port {s t : State} (h : step s = .next t) :
    t.port = s.port ∨ (s.phase = .idle ∧ ∃ w, s.port = w :: t.port) := by
  rcases step_cases h with ⟨e, rest, -, rfl⟩ | ⟨-, c, i, op, rest, -, rfl⟩ | ⟨-, -, -, rfl⟩
    | ⟨-, hp, w, rest, l, hport, rfl⟩
  · cases e <;> exact .inl rfl
  · exact .inl (runOps_keeps (op :: rest) s).2.1
  · exact .inl rfl
  · have hrun := (runOps_keeps l (s.accept w rest)).2.1
    exact .inr ⟨hp, w, by rw [hport, hrun, State.accept_port]⟩

theorem step_params {s t : State} (h : step s = .next t) : t.params = s.params := by
  rcases step_cases h with ⟨e, rest, -, rfl⟩ | ⟨-, c, i, op, rest, -, rfl⟩ | ⟨-, -, -, rfl⟩
    | ⟨-, -, w, rest, l, -, rfl⟩
  · cases e <;> rfl
  · exact (runOps_keeps (op :: rest) s).1
  · rfl
  · exact (runOps_keeps l (s.accept w rest)).1

/-- A step empties the log only as a reset; any other extends it and does not clear the flag. -/
theorem step_reset_or_extends {s t : State} (h : step s = .next t) :
    (t.log = [] ∧ ∃ rest, s.schedule = (0, .reset) :: rest)
      ∨ ((∃ evs, t.log = s.log ++ evs) ∧ (s.initFlag = true → t.initFlag = true)) := by
  rcases step_cases h with ⟨e, rest, hs, rfl⟩ | ⟨-, c, i, op, rest, -, rfl⟩ | ⟨-, -, -, rfl⟩
    | ⟨-, -, w, rest, l, -, rfl⟩
  · cases e with
    | wait => exact .inr ⟨⟨[], by simp [State.takeInput]⟩, id⟩
    | reset => exact .inl ⟨rfl, rest, hs⟩
  · exact .inr ⟨runOps_log_extends _ s, runOps_keeps_initFlag _ s⟩
  · exact .inr ⟨⟨[], by simp⟩, id⟩
  · exact .inr ⟨runOps_log_extends l (s.accept w rest), runOps_keeps_initFlag l (s.accept w rest)⟩

/-- Settles O10: only an Idle block's acceptance takes a word. -/
theorem busyBlockAcceptsNoWord : Obligations.BusyBlockAcceptsNoWord := by
  intro s t c i todo hp h
  rcases step_port h with hport | ⟨hidle, -⟩
  · exact hport
  · simp [hp] at hidle

/-- Settles O11: an acceptance takes the first word, every other step leaves the port. -/
theorem noWordIsLostOrReordered : Obligations.NoWordIsLostOrReordered := by
  intro s t h
  exact (step_port h).imp_right And.right

/-- Settles O36: a step that is no reset keeps a set flag. -/
theorem onlyResetClearsTheFlag : Obligations.OnlyResetClearsTheFlag := by
  intro s t h hs ht
  rcases step_reset_or_extends h with ⟨-, hreset⟩ | ⟨-, hkeeps⟩
  · exact hreset
  · simp [hkeeps hs] at ht

/-- Settles O39: a step that is no reset appends to the log. -/
theorem logOnlyGrows : Obligations.LogOnlyGrows := by
  intro s t h
  exact (step_reset_or_extends h).symm.imp_left And.left

/-- Settles O42: no input and no run writes a parameter. -/
theorem parametersNeverChange : Obligations.ParametersNeverChange := by
  intro s t h
  exact step_params h

/-! ## Single steps -/

/-- Settles O7: `State.accept` writes exactly the fields the statement names. -/
theorem stepRunsTheAcceptedCommand : Obligations.StepRunsTheAcceptedCommand := by
  intro s w rest i hd hp hport hdec
  rw [step_accepts_word hd hp hport, hdec]
  rfl

/-- Settles O12: taking the input `wait` writes the schedule alone. -/
theorem waitingChangesNothing : Obligations.WaitingChangesNothing := by
  intro s rest h
  exact step_input h

/-! ## The state after reset -/

/-- The configured tables meet R101, because `Config.PERM` yields a `LegalPerm`. -/
theorem config_params_wellFormed : Config.params.WellFormed := by
  have h1 := (Config.PERM .pair1).legal
  have h2 := (Config.PERM .pair2).legal
  simp [Params.WellFormed, Params.legal, Config.params, h1, h2]

/-- Settles O14: the values are `State.reset`'s own, and GROUP is the configured default. -/
theorem stateAfterReset : Obligations.StateAfterReset :=
  ⟨rfl, rfl, rfl, rfl, rfl, config_params_wellFormed, rfl, rfl⟩

/-- Settles O31: no word has been served yet. -/
theorem invariantAfterReset : Obligations.InvariantAfterReset := ⟨rfl, .atReset⟩

end Sys2Proof.Machine
end

section
/-! PROOFS. The invariant of the block: a command in flight moves on to a place inside its pseudocode or
to its response, and so every step keeps the invariant (spec/10_state.md R23, R25, R26, R50). -/

namespace Sys2Proof.Machine

/-! ## How a command ends -/

/-- The last primitive of an accepted word's pseudocode (R25, R84, R121). -/
def finalOp (w : Word) : Op :=
  match decode w with
  | .command (.rdreg _) => .respondRead
  | .command _ => .respond .ok 0x00
  | .illegal _ => .respond .illegal 0x00

theorem wordProc_getLast? (p : Params) (w : Word) (f : Bool) :
    (wordProc p w f).1.getLast? = some (finalOp w) := by
  unfold wordProc finalOp
  cases decode w with
  | illegal why => rfl
  | command i =>
    cases i <;>
      simp [commandProc, initProc, setchProc, stepProc, servoProc, stopallProc, setwinProc,
        wrregProc, wrcmdProc, rdregProc, respondOk]

/-- The last primitive gives the word's response, for the byte its read returned. -/
theorem perform_finalOp (s : State) (w : Word) :
    s.perform (finalOp w)
      = s.respond (wordResponse w s.readData).status (wordResponse w s.readData).data := by
  unfold finalOp wordResponse
  cases decode w with
  | illegal why => rfl
  | command i => cases i <;> rfl

@[simp] theorem opEvents_finalOp (p : Params) (d : Byte) (w : Word) :
    opEvents p d [finalOp w] = [] := by
  unfold finalOp
  split <;> rfl

theorem finalOp_ne_setInitFlag (w : Word) : Op.setInitFlag ≠ finalOp w := by
  unfold finalOp
  split <;> exact Op.noConfusion

theorem setInitFlag_notMem_of_onlyWrites {l : List Op} (hl : onlyWrites l) : Op.setInitFlag ∉ l := by
  intro hmem
  obtain ⟨bytes, h⟩ := hl _ hmem
  cases h

/-- The flag where a word's pseudocode ends is set if it was, or by its own write of the flag. -/
theorem wordProc_flag (p : Params) (w : Word) (f : Bool) :
    (wordProc p w f).2 = (f || (wordProc p w f).1.contains .setInitFlag) := by
  cases wordProc_shape p w with
  | driver l hl h => cases f <;> simp [h, ensureInit_uninitialized]
  | raw l hl st h => simp [h, setInitFlag_notMem_of_onlyWrites hl]
  | read reg h => simp [h]

/-! ## The place of a command in flight -/

theorem blockInvariant_idle {s : State} (hp : s.phase = .idle) :
    BlockInvariant s ↔ s.readData = 0 ∧ Served s.params s.initFlag s.log s.responses := by
  simp [BlockInvariant, hp]

theorem blockInvariant_busy {s : State} {c : Word} {i : Nat} {todo : List Op}
    (hp : s.phase = .busy c i todo) :
    BlockInvariant s ↔ ∃ f l d done, InFlight s c i todo f l d done := by
  simp [BlockInvariant, hp]

section
variable {s t : State} {c : Word} {i : Nat} {todo : List Op} {f : Bool} {l : List Event} {d : Byte}
  {done : List Op}

/-- A place speaks of five fields of the state. -/
theorem InFlight.congr (h : InFlight s c i todo f l d done) (hparams : t.params = s.params)
    (hresp : t.responses = s.responses) (hlog : t.log = s.log) (hflag : t.initFlag = s.initFlag)
    (hread : t.readData = s.readData) : InFlight t c i todo f l d done where
  served := by rw [hparams, hresp]; exact h.served
  split := by rw [hparams]; exact h.split
  unfinished := h.unfinished
  log_eq := by rw [hlog, hparams]; exact h.log_eq
  count_eq := by rw [hparams]; exact h.count_eq
  flag_eq := by rw [hflag]; exact h.flag_eq
  read_eq := by rw [hread]; exact h.read_eq

theorem InFlight.wellOrdered (h : InFlight s c i todo f l d done) :
    WellOrdered (done.any Op.isRead) todo := by
  have hall := wordProc_wellOrdered s.params c f
  rw [h.split] at hall
  simpa using hall.of_append h.unfinished

/-- Before its read a place holds for any byte, after it for the byte read. -/
theorem InFlight.with_byte (h : InFlight s c i todo f l d done) {d' : Byte}
    (hd' : done.any Op.isRead = true → d' = s.readData) : InFlight s c i todo f l d' done := by
  cases hr : done.any Op.isRead with
  | true =>
    have hd : s.readData = d := by simpa [hr] using h.read_eq
    rwa [hd' hr, hd]
  | false =>
    have hall := wordProc_wellOrdered s.params c f
    rw [h.split] at hall
    have hev := hall.opEvents_eq_of_unread h.unfinished hr s.params d' d
    exact
      { served := h.served
        split := h.split
        unfinished := h.unfinished
        log_eq := by rw [hev]; exact h.log_eq
        count_eq := by rw [hev]; exact h.count_eq
        flag_eq := h.flag_eq
        read_eq := by simpa [hr] using h.read_eq }

/-- A command in flight moves on to the place after a first part of what it has to do. -/
theorem InFlight.after_performAll {a b : List Op} (h : InFlight s c i (a ++ b) f l d done)
    (hb : b ≠ []) :
    InFlight (performAll a s) c
      (i + (opEvents s.params (s.readByte (done.any Op.isRead)) a).length) b f l
      (s.readByte (done.any Op.isRead)) (done ++ a) := by
  have hs := h.with_byte (d' := s.readByte (done.any Op.isRead))
    fun hr => by simp [hr, State.readByte]
  have ht := performed_performAll (s := s) h.wellOrdered hb
  exact
    { served := by rw [ht.params_eq, ht.responses_eq]; exact hs.served
      split := by rw [ht.params_eq, hs.split, List.append_assoc]
      unfinished := hb
      log_eq := by simp [ht.log_eq, hs.log_eq, ht.params_eq]
      count_eq := by simp [hs.count_eq, ht.params_eq]
      flag_eq := by simp [ht.flag_eq, hs.flag_eq, Bool.or_assoc]
      read_eq := by
        rw [ht.read_eq, hs.read_eq, List.any_append]
        cases done.any Op.isRead <;> cases a.any Op.isRead <;> rfl }

/-- The last primitive of a command in flight ends it: one more whole word has been served. -/
theorem InFlight.perform_last {op : Op} (h : InFlight s c i [op] f l d done) :
    BlockInvariant (s.perform op) := by
  have hs := h.with_byte (d' := s.readData) fun _ => rfl
  have hlast : op = finalOp c := by simpa [h.split] using wordProc_getLast? s.params c f
  rw [hlast] at hs ⊢
  have hserved := hs.served.word c s.readData
  rw [wordProc_flag, hs.split] at hserved
  rw [perform_finalOp, blockInvariant_idle rfl]
  refine ⟨rfl, ?_⟩
  simpa [hs.flag_eq, hs.log_eq, finalOp_ne_setInitFlag] using hserved

/-- A run from a place inside a command ends at a later place of it, or after its response. -/
theorem InFlight.invariant_after_runOps {t' : List Op} (h : InFlight s c i todo f l d done)
    (hp : s.phase = .busy c i t') : BlockInvariant (runOps todo s) := by
  have hw := h.wellOrdered
  rcases runOps_cases h.unfinished s with ⟨a, op, b, rfl, -, hrun⟩ | ⟨a, op, rfl, hrun⟩
  · have hplace := h.after_performAll (List.cons_ne_nil op b)
    have hphase := (performed_performAll (s := s) hw (List.cons_ne_nil op b)).phase_eq c i t' hp
    rw [hrun, blockInvariant_busy (by rw [hphase]; rfl)]
    exact ⟨_, _, _, _, hplace.congr rfl rfl rfl rfl rfl⟩
  · have hplace := h.after_performAll (List.cons_ne_nil op [])
    have hdone := (hplace.congr (t := (performAll a s).tick) rfl rfl rfl rfl rfl).perform_last
    obtain ⟨x, hx⟩ := (hw.of_append (List.cons_ne_nil op [])).perform_last (performAll a s).tick
    rw [hx] at hdone
    rw [hrun, hx]
    exact hdone

end

/-! ## A step from a state that meets the invariant -/

theorem BlockInvariant.with_schedule {s : State} (h : BlockInvariant s)
    (x : List (Nat × EnvInput)) : BlockInvariant { s with schedule := x } := by
  cases hp : s.phase with
  | idle =>
    rw [blockInvariant_idle hp] at h
    exact (blockInvariant_idle rfl).mpr h
  | busy c i todo =>
    obtain ⟨f, l, d, done, hplace⟩ := (blockInvariant_busy hp).mp h
    exact (blockInvariant_busy rfl).mpr ⟨f, l, d, done, hplace.congr rfl rfl rfl rfl rfl⟩

/-- The place of a word just accepted: all of its pseudocode is still to do. -/
theorem inFlight_accept {s : State} (h : BlockInvariant s) (hp : s.phase = .idle) (w : Word)
    (rest : List Word) :
    InFlight (s.accept w rest) w 0 (wordProc s.params w s.initFlag).1 s.initFlag s.log 0 [] := by
  obtain ⟨hread, hserved⟩ := (blockInvariant_idle hp).mp h
  exact
    { served := hserved
      split := rfl
      unfinished := (wordProc_wellOrdered _ _ _).ne_nil
      log_eq := by simp
      count_eq := rfl
      flag_eq := by simp
      read_eq := hread }

/-- A step that meets the invariant and takes no input is a wait at the port, or a run from a place
inside a command: the one in flight, or the one accepted in this step. -/
theorem BlockInvariant.step_cases {s t : State} (hI : BlockInvariant s) (h : step s = .next t) :
    (∃ e rest, s.schedule = (0, e) :: rest ∧ t = s.takeInput e rest)
      ∨ t = s.tick
      ∨ ∃ u c i todo t' f l d done, (u = s ∨ ∃ w rest, u = s.accept w rest)
          ∧ u.phase = .busy c i t' ∧ InFlight u c i todo f l d done ∧ t = runOps todo u := by
  rcases Machine.step_cases h with hin | ⟨-, c, i, op, rest, hp, rfl⟩ | ⟨-, -, -, rfl⟩
    | ⟨hd, hp, w, rest, l, hport, -⟩
  · exact .inl hin
  · obtain ⟨f, l, d, done, hplace⟩ := (blockInvariant_busy hp).mp hI
    exact .inr (.inr ⟨s, c, i, _, _, f, l, d, done, .inl rfl, hp, hplace, rfl⟩)
  · exact .inr (.inl rfl)
  · rw [step_accepts hd hp hport] at h
    cases h
    exact .inr (.inr ⟨_, w, 0, _, [], _, _, _, _, .inr ⟨w, rest, rfl⟩, rfl,
      inFlight_accept hI hp w rest, rfl⟩)

/-- Settles O30: an input leaves the invariant or begins anew after reset, and a run from a place inside a
command ends at such a place or after one more whole command. -/
theorem everyStepKeepsTheInvariant : Obligations.EveryStepKeepsTheInvariant := by
  intro s t hI h
  rcases hI.step_cases h with ⟨e, rest, -, rfl⟩ | rfl
    | ⟨u, c, i, todo, t', f, l, d, done, -, hp, hplace, rfl⟩
  · cases e with
    | wait => exact hI.with_schedule rest
    | reset => exact ⟨rfl, .atReset⟩
  · exact hI.with_schedule _
  · exact hplace.invariant_after_runOps hp

/-- Settles O43: a run inside a command gives its one response or is cut before it. -/
theorem atMostOneResponseAStep : Obligations.AtMostOneResponseAStep := by
  intro s t hI h
  rcases hI.step_cases h with ⟨e, rest, hs, rfl⟩ | rfl
    | ⟨u, c, i, todo, t', f, l, d, done, hu, -, hplace, rfl⟩
  · cases e with
    | wait => exact .inl rfl
    | reset => exact .inr (.inr ⟨rest, hs⟩)
  · exact .inl rfl
  · have hresp : u.responses = s.responses := by
      rcases hu with rfl | ⟨w, rest, rfl⟩ <;> rfl
    rw [← hresp]
    exact hplace.wellOrdered.runOps_responses u |>.imp_right .inl

/-! ## A Running block was initialized -/

theorem occursIn_append_left {evs log : List Event} (h : occursIn evs log) (l : List Event) :
    occursIn evs (log ++ l) := by
  obtain ⟨x, y, rfl⟩ := h
  exact ⟨x, y ++ l, by simp⟩

theorem occursIn_append_right {evs log : List Event} (h : occursIn evs log) (l : List Event) :
    occursIn evs (l ++ log) := by
  obtain ⟨x, y, rfl⟩ := h
  exact ⟨l ++ x, y, by simp⟩

/-- The write of the flag is the last of EnsureInit's primitives, so a first part of a command that has
made it has made them all. -/
theorem initOps_isPrefix_of_setInitFlag_mem {p : Params} {done todo rest : List Op}
    (h : done ++ todo = initOps p ++ rest) (hmem : Op.setInitFlag ∈ done) : initOps p <+: done := by
  rcases List.append_eq_append_iff.mp h with ⟨a, ha, -⟩ | ⟨a, ha, -⟩
  · by_cases hnil : a = []
    · simp [ha, hnil]
    · have hlast : (initOps p).dropLast = done ++ a.dropLast := by
        rw [ha, List.dropLast_append_of_ne_nil hnil]
      have hmem' : Op.setInitFlag ∈ (initOps p).dropLast := by simp [hlast, hmem]
      simp [initOps] at hmem'
  · exact ⟨a, ha.symm⟩

theorem opEvents_initOps (p : Params) (d : Byte) : opEvents p d (initOps p) = initSeq p d := by
  simp [initOps, initSeq, and_allOnes_byte]

/-- A first part of a word's pseudocode that has set the flag has emitted the sequence of R96. -/
theorem initSeq_occursIn_of_setInitFlag_mem {p : Params} {w : Word} {done todo : List Op}
    (h : (wordProc p w false).1 = done ++ todo) (hmem : Op.setInitFlag ∈ done) (d : Byte) :
    occursIn (initSeq p d) (opEvents p d done) := by
  have hall : Op.setInitFlag ∈ (wordProc p w false).1 := by simp [h, hmem]
  cases wordProc_shape p w with
  | driver l hl hshape =>
    rw [hshape, ensureInit_eq] at h
    obtain ⟨rest, rfl⟩ := initOps_isPrefix_of_setInitFlag_mem h.symm hmem
    exact ⟨[], opEvents p d rest, by simp [opEvents_initOps]⟩
  | raw l hl st hshape => simp [hshape, setInitFlag_notMem_of_onlyWrites hl] at hall
  | read reg hshape => simp [hshape] at hall

theorem Served.initialized {p : Params} {f : Bool} {l : List Event} {rs : List Response}
    (h : Served p f l rs) (hf : f = true) : ∃ b, occursIn (initSeq p b) l := by
  induction h with
  | atReset => cases hf
  | @word f l rs w d _ ih =>
    cases f with
    | true =>
      obtain ⟨b, hb⟩ := ih rfl
      exact ⟨b, occursIn_append_left hb _⟩
    | false =>
      have hmem : Op.setInitFlag ∈ (wordProc p w false).1 := by simpa [wordProc_flag] using hf
      exact ⟨d, occursIn_append_right
        (initSeq_occursIn_of_setInitFlag_mem (List.append_nil _).symm hmem d) l⟩

/-- Settles O33: the flag was set by a word served since reset, or by the command in flight, and either
emitted the sequence before it. -/
theorem runningBlockWasInitialized : Obligations.RunningBlockWasInitialized := by
  intro s hI hflag
  cases hp : s.phase with
  | idle =>
    obtain ⟨-, hserved⟩ := (blockInvariant_idle hp).mp hI
    exact hserved.initialized hflag
  | busy c i todo =>
    obtain ⟨f, l, d, done, h⟩ := (blockInvariant_busy hp).mp hI
    rw [h.log_eq]
    cases f with
    | true =>
      obtain ⟨b, hb⟩ := h.served.initialized rfl
      exact ⟨b, occursIn_append_left hb _⟩
    | false =>
      have hmem : Op.setInitFlag ∈ done := by simpa [h.flag_eq] using hflag
      exact ⟨d, occursIn_append_right (initSeq_occursIn_of_setInitFlag_mem h.split hmem d) l⟩

end Sys2Proof.Machine
end

section
/-! PROOFS. Inputs that land inside a command, and what a command does not depend on: the place kept in
Busy, a wait, the flag for a raw command, and the byte an earlier read left (spec/10_state.md R22, R23,
R28, R30). -/

namespace Sys2Proof.Machine

/-! ## An input inside a command -/

/-- A command that an input cuts after n primitives stands there, with the others to do. -/
theorem exec_cut {i : Instr} {s : State} {n : Nat} {e : EnvInput} {rest : List (Nat × EnvInput)}
    (hs : s.schedule = (n, e) :: rest) (hn : n < (commandProc s.params i s.initFlag).1.length) :
    exec i s = .next
      { performAll ((commandProc s.params i s.initFlag).1.take n) s with
        phase := (performAll ((commandProc s.params i s.initFlag).1.take n) s).phase.at
          ((commandProc s.params i s.initFlag).1.drop n) } := by
  rw [exec_eq, List.drop_eq_getElem_cons hn]
  generalize (commandProc s.params i s.initFlag).1 = ops at hn ⊢
  have hcut := runOps_cut (ops.take n) ops[n] (ops.drop (n + 1)) s e rest
    (by rw [hs, List.length_take_of_le hn.le])
  rw [← hcut, ← List.drop_eq_getElem_cons hn, List.take_append_drop]

/-- What the primitives of a command before an input leave. -/
theorem performed_take (i : Instr) (s : State) {n : Nat}
    (hn : n < (commandProc s.params i s.initFlag).1.length) :
    Performed s (performAll ((commandProc s.params i s.initFlag).1.take n) s) false
      ((commandProc s.params i s.initFlag).1.take n) :=
  performed_performAll (b := (commandProc s.params i s.initFlag).1.drop n)
    (by rw [List.take_append_drop]; exact commandProc_wellOrdered _ _ _)
    (by simpa using hn)

/-- Settles O27: the cut command stands after its first n primitives, none of them its response. -/
theorem inputLandsInsideACommand : Obligations.InputLandsInsideACommand := by
  intro i s c k n e rest ops hp hs hn
  have h := performed_take i s hn
  refine ⟨_, exec_cut hs hn, h.log_eq, ?_, h.flag_eq, h.responses_eq, ?_, h.port_eq, h.history_eq,
    h.params_eq⟩
  · simp only [h.phase_eq c k [] hp, Phase.at_busy]
    rfl
  · simp [performAll_schedule, hs, ops, List.length_take_of_le hn.le]

/-! ## A wait inside a command -/

theorem Phase.counted_at (ph : Phase) (x : List Op) : (ph.at x).counted = ph.counted.at x := by
  cases ph <;> rfl

theorem Phase.at_at (ph : Phase) (x y : List Op) : (ph.at x).at y = ph.at y := by
  cases ph <;> rfl

/-- A run does not read the place kept in Busy: it writes its own where it stops. -/
theorem runOps_at (l x : List Op) (s : State) :
    runOps l { s with phase := s.phase.at x } = runOps l s := by
  induction l generalizing s with
  | nil => simp [Phase.at_at]
  | cons op l ih =>
    cases hd : s.inputDue with
    | true =>
      rw [runOps_due op l hd, runOps_due (s := { s with phase := s.phase.at x }) op l hd]
      simp [Phase.at_at]
    | false =>
      have hperform : ({ s with phase := s.phase.at x } : State).tick.perform op
          = { s.tick.perform op with phase := (s.tick.perform op).phase.at x } := by
        cases op <;>
          simp [State.perform, State.emit, State.respond, State.tick, State.busAnswer,
            Phase.counted_at]
      rw [runOps_go op l hd, runOps_go (s := { s with phase := s.phase.at x }) op l hd, hperform, ih]

/-- The primitives read nothing of the schedule: they only count its moves. -/
theorem performAll_with_schedule (l : List Op) (s : State) (x : List (Nat × EnvInput)) :
    performAll l { s with schedule := x }
      = { performAll l s with schedule := laterSchedule l.length x } := by
  induction l generalizing s x with
  | nil => simp
  | cons op l ih =>
    have hop : ({ s with schedule := x } : State).tick.perform op
        = { s.tick.perform op with schedule := laterSchedule 1 x } := by cases op <;> rfl
    rw [performAll_cons, performAll_cons, hop, ih, laterSchedule_add, List.length_cons, Nat.add_comm]

/-- A run whose schedule has nothing before move n makes n moves and meets what comes after. -/
theorem runOps_scheduleAfter (l m : List Op) (s : State) (rest : List (Nat × EnvInput)) :
    runOps (l ++ m) { s with schedule := scheduleAfter l.length rest }
      = runOps m { performAll l s with schedule := rest } := by
  have hquiet : ({ s with schedule := scheduleAfter l.length rest } : State).quietFor l.length := by
    cases rest <;> simp [State.quietFor, scheduleAfter]
  rw [runOps_append_of_quiet l m _ hquiet, performAll_with_schedule, laterSchedule_scheduleAfter]

/-- A command stopped at a place goes on from it as if it had not stopped: where an input is due at once
the run stops at that very place, otherwise the next step does the rest. -/
theorem step_goes_on {s : State} {c : Word} {k : Nat} {x l : List Op}
    (hp : s.phase = .busy c k x) (hl : l ≠ []) :
    if ({ s with phase := s.phase.at l } : State).inputDue then
      { s with phase := s.phase.at l } = runOps l s
    else step { s with phase := s.phase.at l } = .next (runOps l s) := by
  obtain ⟨op, m, rfl⟩ := List.exists_cons_of_ne_nil hl
  split
  · next hd => exact (runOps_due (s := s) op m hd).symm
  · next hd =>
    rw [step_busy (c := c) (i := k) (op := op) (rest := m) (by simpa using hd) (by simp [hp]),
      runOps_at]

/-- Settles O29: the wait leaves the place it met; the run without it comes to the same place, and going on
does not depend on what Busy kept. -/
theorem waitInsideACommandChangesNothing : Obligations.WaitInsideACommandChangesNothing := by
  intro i s c k n rest hp hs hn
  have hdone := performed_take i s hn
  have hcut := exec_cut hs hn
  have hfree := exec_eq i { s with schedule := scheduleAfter n rest }
  generalize (commandProc s.params i s.initFlag).1 = ops at hn hdone hcut hfree
  have hlen : (ops.take n).length = n := List.length_take_of_le hn.le
  have hrun := runOps_scheduleAfter (ops.take n) (ops.drop n) s rest
  rw [List.take_append_drop, hlen] at hrun
  rw [hrun] at hfree
  have hdue : (performAll (ops.take n) s).schedule = (0, .wait) :: rest := by
    simp [performAll_schedule, hs, hlen]
  exact ⟨_, _, _, hcut, step_input hdue, hfree,
    step_goes_on (s := { performAll (ops.take n) s with schedule := rest })
      (hdone.phase_eq c k [] hp) (by simpa using hn)⟩

/-! ## The flag and the raw commands -/

theorem runOps_with_initFlag {l : List Op} (hl : Op.setInitFlag ∉ l) (s : State) (f : Bool) :
    runOps l { s with initFlag := f } = { runOps l s with initFlag := f } := by
  induction l generalizing s with
  | nil => rfl
  | cons op l ih =>
    rw [List.mem_cons, not_or] at hl
    obtain ⟨hop, hl⟩ := hl
    cases hd : s.inputDue with
    | true => rw [runOps_due op l hd, runOps_due (s := { s with initFlag := f }) op l hd]
    | false =>
      have hperform : ({ s with initFlag := f } : State).tick.perform op
          = { s.tick.perform op with initFlag := f } := by
        cases op with
        | setInitFlag => exact absurd rfl hop
        | _ => rfl
      rw [runOps_go op l hd, runOps_go (s := { s with initFlag := f }) op l hd, hperform, ih hl]

/-- A raw command's pseudocode is the same for both values of the flag and has no write of it. -/
theorem commandProc_raw (p : Params) {i : Instr} (hi : initializes i = false) :
    ∃ l, Op.setInitFlag ∉ l ∧ ∀ f, (commandProc p i f).1 = l := by
  cases i with
  | setwin ch on off =>
    obtain ⟨l, hl, hw⟩ := win_writes p ch on off
    refine ⟨l ++ [.respond .ok 0x00], by simp [setInitFlag_notMem_of_onlyWrites hl], fun f => ?_⟩
    simp [commandProc, setwinProc, hw, respondOk]
  | wrreg reg val =>
    exact ⟨[.busWrite [BitVec.ofNat 8 reg, trunc8 val], .respond .ok 0x00], by simp, fun _ => rfl⟩
  | wrcmd val => exact ⟨[.busWrite [trunc8 val], .respond .ok 0x00], by simp, fun _ => rfl⟩
  | rdreg reg => exact ⟨[.busRead (BitVec.ofNat 8 reg), .respondRead], by simp, fun _ => rfl⟩
  | _ => cases hi

/-- Settles O38: the run of a raw command commutes with any change of the flag, so it leaves the flag as
it was. -/
theorem rawCommandsIgnoreTheFlag : Obligations.RawCommandsIgnoreTheFlag := by
  intro i s f hi
  have hraw : initializes i = false := by
    cases i with
    | setwin | wrreg | wrcmd | rdreg => rfl
    | _ => exact hi.elim
  obtain ⟨l, hl, hproc⟩ := commandProc_raw s.params hraw
  have hexec (g : Bool) :
      exec i { s with initFlag := g } = .next { runOps l s with initFlag := g } := by
    rw [exec_eq, hproc, runOps_with_initFlag hl]
  refine ⟨_, hexec s.initFlag, rfl, hexec f⟩

/-! ## The byte an earlier read left -/

/-- Before a command's read, its outcome does not depend on `readData`: nothing uses it, and the read or
the response writes it. -/
theorem runOps_with_readData {l : List Op} (h : WellOrdered false l) (s : State) (x : Byte) :
    ∃ y, runOps l { s with readData := x } = { runOps l s with readData := y } := by
  induction l generalizing s with
  | nil => exact absurd rfl h.ne_nil
  | cons op l ih =>
    cases hd : s.inputDue with
    | true =>
      rw [runOps_due op l hd, runOps_due (s := { s with readData := x }) op l hd]
      exact ⟨x, rfl⟩
    | false =>
      rw [runOps_go op l hd, runOps_go (s := { s with readData := x }) op l hd]
      cases h with
      | busWrite bytes h => exact ih h (s.tick.perform (.busWrite bytes))
      | delay us h => exact ih h (s.tick.perform (.delay us))
      | setInitFlag h => exact ih h (s.tick.perform .setInitFlag)
      | busRead => exact ⟨_, rfl⟩
      | respond => exact ⟨_, rfl⟩

/-- Settles O44: the two runs end alike but for `readData`. -/
theorem noBufferSurvivesIntoACommand : Obligations.NoBufferSurvivesIntoACommand := by
  intro i s x
  obtain ⟨y, hy⟩ := runOps_with_readData (commandProc_wellOrdered s.params i s.initFlag) s x
  refine ⟨_, _, exec_eq i s, exec_eq i _, ?_⟩
  simp only [hy]

end Sys2Proof.Machine
end

section
/-! PROOFS. What one undisturbed command leaves to observe: the byte RDREG answers (spec/40_codec.md R84)
and the last windows after SETCH (spec/10_state.md R35). -/

namespace Sys2Proof.Machine

/-! ## The byte of a read -/

theorem exec_rdreg_quiet (s : State) (reg : Nat) (h : s.quietFor 2) :
    exec (.rdreg reg) s = .next
      (performAll [.busRead (BitVec.ofNat 8 reg), .respondRead] s) :=
  congrArg _ (runOps_quiet [.busRead (BitVec.ofNat 8 reg), .respondRead] s h)

/-- Settles O24: the read takes the next byte listed, whatever it is. -/
theorem readAnswersAnyByte : Obligations.ReadAnswersAnyByte := by
  intro s reg b later hquiet hbus
  refine ⟨_, exec_rdreg_quiet s reg hquiet, ?_⟩
  simp [State.perform, State.busAnswer, hbus]

/-! ## Last windows -/

/-- Events that write no window of a channel leave its last window. -/
theorem lastWin_append_of_no_window {p : Params} {c : Nat} {evs : List Event}
    (h : ∀ e ∈ evs, e.windowOn p c = none) (log : List Event) :
    lastWin p (log ++ evs) c = lastWin p log c := by
  simp [lastWin, List.filterMap_eq_nil_iff.mpr h]

/-- The initialization sequence writes no window: its writes have two bytes (R96). -/
theorem lastWin_append_initEvents (s : State) (log : List Event) (c : Nat) :
    lastWin s.params (log ++ initEvents s) c = lastWin s.params log c := by
  apply lastWin_append_of_no_window
  cases hf : s.initFlag <;> simp [initEvents, initSeq, hf, Event.windowOn]

/-- A window write gives its channel the two 16-bit ticks sent. -/
theorem windowOn_windowWrite_same (p : Params) (c : Nat) (on off : Int) :
    (windowWrite p c on off).windowOn p c = some ((enc16 on).toNat, (enc16 off).toNat) := by
  rw [← window_event_eq, ← tlo_add_thi on, ← tlo_add_thi off]
  simp [Event.windowOn]

theorem windowOn_windowWrite_other {p : Params} {c c' : Nat} (hc : c ≤ 15) (hc' : c' ≤ 15)
    (hne : c' ≠ c) (on off : Int) : (windowWrite p c on off).windowOn p c' = none := by
  have hreg : channelReg p c ≠ channelReg p c' := fun h => hne (channelReg_injective p hc hc' h).symm
  rw [← window_event_eq]
  simp [Event.windowOn, hreg]

/-- SETCH on a channel of 0..15 emits EnsureInit's events and then its window (R94). -/
theorem exec_setch_log (s : State) {ch : Nat} (hch : ch ≤ 15) (on off : Nat)
    (h : s.quietFor (initMoves s + 2)) :
    ∃ t, exec (.setch ch on off) s = .next t
      ∧ t.log = s.log ++ initEvents s ++ [windowWrite s.params ch on off] := by
  have hproc : (commandProc s.params (.setch ch on off) s.initFlag).1
      = (ensureInit s.params s.initFlag).1
        ++ [.busWrite [channelReg s.params ch, tlo on, thi on, tlo off, thi off],
          .respond .ok 0x00] := by
    simp [commandProc, setchProc, chan, win_of_le s.params ch on off hch, respondOk]
  obtain ⟨ph, hrun⟩ := runOps_ensureInit s
    [.busWrite [channelReg s.params ch, tlo on, thi on, tlo off, thi off], .respond .ok 0x00] h
  refine ⟨_, exec_eq _ s, ?_⟩
  rw [hproc, hrun, runOps_quiet _ _ (quietFor_later h rfl)]
  simp [← window_event_eq]

theorem enc16_natCast_toNat {n : Nat} (h : n ≤ 65535) : (enc16 (n : Int)).toNat = n := by
  have henc := enc16_toNat_of_lt (v := n) (by omega) (by omega)
  omega

/-- Settles O55: the window write is the last event, and only its own channel's. -/
theorem lastWindowAfterSetch : Obligations.LastWindowAfterSetch := by
  intro s ch on off hch hon hoff hquiet
  obtain ⟨t, hexec, hlog⟩ := exec_setch_log s hch on off hquiet
  refine ⟨t, hexec, ?_, fun c hc hne => ?_⟩
  · rw [hlog, lastWin_append_singleton, windowOn_windowWrite_same, enc16_natCast_toNat hon,
      enc16_natCast_toNat hoff, Option.some_or]
  · rw [hlog, lastWin_append_singleton, windowOn_windowWrite_other hch hc hne, Option.none_or,
      lastWin_append_initEvents]

end Sys2Proof.Machine
end

section
/-! PROOFS. Every event goes to DEV_ADDR in a transaction format, or is the settle delay
(spec/10_state.md R26, spec/20_memory.md R40, R44, R45). -/

namespace Sys2Proof.Machine

/-! ## Pseudocode whose events have a format -/

/-- Wherever the pseudocode starts and whatever byte its read returns, its events have their formats. -/
def Proc.Formatted (p : Params) (pr : Proc) : Prop :=
  ∀ f d, ∀ e ∈ opEvents p d (pr f).1, e.hasFormat p

section
variable {p : Params}

theorem ops_formatted {l : List Op} (h : ∀ d, ∀ e ∈ opEvents p d l, e.hasFormat p) :
    (Proc.ops l).Formatted p := fun _ => h

theorem andThen_formatted {a b : Proc} (ha : a.Formatted p) (hb : b.Formatted p) :
    (a.andThen b).Formatted p := by
  intro f d e he
  rw [Proc.andThen_apply, opEvents_append, List.mem_append] at he
  exact he.elim (ha f d e) (hb _ d e)

theorem inOrder_formatted {l : List Proc} (h : ∀ q ∈ l, q.Formatted p) :
    (Proc.inOrder l).Formatted p := by
  induction l with
  | nil => exact ops_formatted (by simp)
  | cons q l ih =>
    exact andThen_formatted (h q (by simp)) (ih fun r hr => h r (by simp [hr]))

theorem respond_formatted (st : Status) (b : Byte) : (Proc.ops [.respond st b]).Formatted p :=
  ops_formatted (by simp)

theorem regWrite_formatted (reg : Byte) (v : Int) : (regWrite reg v).Formatted p :=
  ops_formatted (by simp [Event.hasFormat])

theorem cmdWrite_formatted (v : Int) : (cmdWrite v).Formatted p :=
  ops_formatted (by simp [Event.hasFormat])

theorem regRead_formatted (reg : Byte) : (regRead reg).Formatted p :=
  ops_formatted (by simp [Event.hasFormat])

/-- The range check of `Win` is what bounds the channel of a five-byte write. -/
theorem win_formatted (ch on off : Int) : (win p ch on off).Formatted p := by
  unfold win
  split
  · exact ops_formatted (by simp)
  · next hch =>
    have hle : ch.toNat ≤ 15 := by omega
    exact ops_formatted (by simpa [Event.hasFormat, channelReg] using ⟨ch.toNat, hle, rfl⟩)

/-- The initialization sequence has two-byte writes, one read and the settle delay (R96). -/
theorem ensureInit_formatted : (ensureInit p).Formatted p := by
  intro f d
  cases f with
  | true => simp
  | false => simp [ensureInit_uninitialized, Event.hasFormat]

theorem chan_formatted (ch on off : Int) : (chan p ch on off).Formatted p :=
  andThen_formatted ensureInit_formatted (win_formatted ch on off)

/-! ## Commands and words -/

theorem commandProc_formatted (i : Instr) : (commandProc p i).Formatted p := by
  cases i with
  | init => exact andThen_formatted ensureInit_formatted (respond_formatted _ _)
  | setch => exact andThen_formatted (chan_formatted _ _ _) (respond_formatted _ _)
  | step q d =>
    refine andThen_formatted (inOrder_formatted fun r hr => ?_) (respond_formatted _ _)
    obtain ⟨k, -, rfl⟩ := List.mem_map.mp hr
    exact chan_formatted _ _ _
  | servo => exact andThen_formatted (chan_formatted _ _ _) (respond_formatted _ _)
  | stopall =>
    refine andThen_formatted (inOrder_formatted fun r hr => ?_) (respond_formatted _ _)
    obtain ⟨k, -, rfl⟩ := List.mem_map.mp hr
    exact andThen_formatted (chan_formatted _ _ _) (chan_formatted _ _ _)
  | setwin => exact andThen_formatted (win_formatted _ _ _) (respond_formatted _ _)
  | wrreg => exact andThen_formatted (regWrite_formatted _ _) (respond_formatted _ _)
  | wrcmd => exact andThen_formatted (cmdWrite_formatted _) (respond_formatted _ _)
  | rdreg => exact andThen_formatted (regRead_formatted _) (ops_formatted (by simp))

theorem wordProc_formatted (w : Word) : (wordProc p w).Formatted p := by
  unfold wordProc
  split
  · exact commandProc_formatted _
  · exact respond_formatted _ _

/-! ## The log -/

/-- The log of whole commands is made of their pseudocodes' events. -/
theorem Served.hasFormat {f : Bool} {l : List Event} {rs : List Response} (h : Served p f l rs) :
    ∀ e ∈ l, e.hasFormat p := by
  induction h with
  | atReset => simp
  | @word f l rs w d _ ih =>
    intro e he
    exact (List.mem_append.mp he).elim (ih e) (wordProc_formatted w f d e)

end

/-- A command in flight has added the events of a first part of its pseudocode. -/
theorem InFlight.hasFormat {s : State} {c : Word} {i : Nat} {todo done : List Op} {f : Bool}
    {l : List Event} {d : Byte} (h : InFlight s c i todo f l d done) :
    ∀ e ∈ s.log, e.hasFormat s.params := by
  have hall := wordProc_formatted (p := s.params) c f d
  rw [h.split, opEvents_append] at hall
  intro e he
  rw [h.log_eq] at he
  exact (List.mem_append.mp he).elim (h.served.hasFormat e)
    fun hdone => hall e (List.mem_append_left _ hdone)

/-- Settles O35: the log is the events of the words served and of a first part of the one in flight, and
all of a word's pseudocode has its formats. -/
theorem everyEventHasItsFormat : Obligations.EveryEventHasItsFormat := by
  intro s hI
  cases hp : s.phase with
  | idle =>
    obtain ⟨-, hserved⟩ := (blockInvariant_idle hp).mp hI
    exact hserved.hasFormat
  | busy c i todo =>
    obtain ⟨f, l, d, done, hplace⟩ := (blockInvariant_busy hp).mp hI
    exact hplace.hasFormat

end Sys2Proof.Machine
end

section
/-! PROOFS. The opcode map as a decoder: which row a word selects and what it decodes to
(spec/30_encoding.md R64 to R66). -/

namespace Sys2Proof

/-! ## The row a word selects is unique (R65) -/

theorem mask_opField {r : OpcodeRow} (hr : r ∈ opcodeTable) : opField r.mask = 0xFF#8 := by
  revert r; decide

/-- Every mask covers the whole OP byte, so a row selects only words with its own OP. -/
theorem opField_of_selects {r : OpcodeRow} {w : Word} (hr : r ∈ opcodeTable)
    (hs : r.selects w = true) :
    opField w = opField r.pattern := by
  have hop := ((selects_iff r w).mp hs).1
  rwa [mask_opField hr, and_ff] at hop

/-- No two rows share an OP. -/
theorem row_eq_of_opField_eq : ∀ r₁ ∈ opcodeTable, ∀ r₂ ∈ opcodeTable,
    opField r₁.pattern = opField r₂.pattern → r₁ = r₂ := by
  decide

theorem row_unique {r₁ r₂ : OpcodeRow} {w : Word} (h₁ : r₁ ∈ opcodeTable) (h₂ : r₂ ∈ opcodeTable)
    (hs₁ : r₁.selects w = true) (hs₂ : r₂.selects w = true) : r₁ = r₂ :=
  row_eq_of_opField_eq r₁ h₁ r₂ h₂
    ((opField_of_selects h₁ hs₁).symm.trans (opField_of_selects h₂ hs₂))

theorem exists_row_of_decode {w : Word} {i : Instr} (h : decode w = .command i) :
    ∃ r ∈ opcodeTable, r.selects w = true ∧ assemble r.mnemonic w = i := by
  obtain ⟨r, hfind, hi⟩ := (decode_eq_command w i).mp h
  exact ⟨r, List.mem_of_find?_eq_some hfind,
    List.find?_some (p := (OpcodeRow.selects · w)) hfind, hi⟩

theorem decode_of_selects {r : OpcodeRow} {w : Word} (hr : r ∈ opcodeTable)
    (hs : r.selects w = true) :
    decode w = .command (assemble r.mnemonic w) := by
  cases h : decode w with
  | command i =>
    obtain ⟨r', hr', hs', rfl⟩ := exists_row_of_decode h
    rw [row_unique hr' hr hs' hs]
  | illegal why =>
    have hnone := (decode_illegal_iff w).mp ⟨why, h⟩ r hr
    rw [hs] at hnone
    contradiction

theorem selects_eq_true_iff (r : OpcodeRow) (w : Word) :
    r.selects w = true ↔ w &&& r.mask = r.pattern :=
  beq_iff_eq

/-- Settles O4: the masks cover OP and the rows differ in OP, so the row that `decode` finds first is
the only one. -/
theorem decodeFollowsTheOpcodeMap : Obligations.DecodeFollowsTheOpcodeMap := by
  refine ⟨fun r₁ h₁ r₂ h₂ w hs₁ hs₂ => ?_, fun r hr w hs => ?_, fun w hnone => ?_⟩
  · exact row_unique h₁ h₂ ((selects_eq_true_iff r₁ w).mpr hs₁) ((selects_eq_true_iff r₂ w).mpr hs₂)
  · exact decode_of_selects hr ((selects_eq_true_iff r w).mpr hs)
  · refine (decode_illegal_iff w).mpr fun r hr => ?_
    rw [Bool.eq_false_iff, Ne, selects_eq_true_iff]
    exact hnone r hr

end Sys2Proof
end

section
/-! PROOFS. `decode` and `encode` undo each other (spec/30_encoding.md R65, R69). -/

namespace Sys2Proof

/-! ## Operands and their fields (R63) -/

theorem sext16_eq_toInt (x : Half) : sext16 x = x.toInt := by
  unfold sext16
  rw [BitVec.toInt_eq_toNat_cond]
  split <;> split <;> omega

@[simp] theorem enc16_sext16 (x : Half) : enc16 (sext16 x) = x := by
  rw [sext16_eq_toInt, enc16, BitVec.ofInt_toInt]

theorem sext16_enc16 {v : Int} (h0 : -32768 ≤ v) (h1 : v ≤ 32767) : sext16 (enc16 v) = v := by
  rw [sext16_eq_toInt, enc16, BitVec.toInt_ofInt_eq_self] <;> omega

theorem sext16_fitsS16 (x : Half) : -32768 ≤ sext16 x ∧ sext16 x ≤ 32767 := by
  unfold sext16
  have hx := x.isLt
  split <;> omega

/-- P is bit 0 of field A. -/
theorem pairOf_eq (w : Word) : pairOf w = if (aField w).getLsbD 0 then .pair2 else .pair1 := by
  simp [pairOf, aField]

/-- D is bit 0 of field X. -/
theorem dirOf_eq (w : Word) : dirOf w = if (xField w).getLsbD 0 then .ccw else .cw := by
  simp [dirOf, xField]

theorem pairOf_of_aField {w : Word} {p : Pair} (h : aField w = pairBit p) : pairOf w = p := by
  rw [pairOf_eq, h]
  cases p <;> rfl

theorem dirOf_of_xField {w : Word} {d : Dir} (h : xField w = dirBit d) : dirOf w = d := by
  rw [dirOf_eq, h]
  cases d <;> rfl

theorem pairBit_pairOf {w : Word} (h : aField w = 0#8 ∨ aField w = 1#8) :
    pairBit (pairOf w) = aField w := by
  rw [pairOf_eq]
  rcases h with h | h <;> rw [h] <;> rfl

theorem dirBit_dirOf {w : Word} (h : xField w = 0#16 ∨ xField w = 1#16) :
    dirBit (dirOf w) = xField w := by
  rw [dirOf_eq]
  rcases h with h | h <;> rw [h] <;> rfl

/-- An operand that fits field A is what the field holds. -/
theorem toNat_ofNat_8 {n : Nat} (h : n ≤ 255) : (BitVec.ofNat 8 n).toNat = n :=
  (BitVec.toNat_ofNat n 8).trans (Nat.mod_eq_of_lt (by omega))

/-- An operand that fits a 16-bit field is what the field holds. -/
theorem toNat_ofNat_16 {n : Nat} (h : n ≤ 65535) : (BitVec.ofNat 16 n).toNat = n :=
  (BitVec.toNat_ofNat n 16).trans (Nat.mod_eq_of_lt (by omega))

/-! ## Decoding an encoded command -/

theorem encode_selects_row (i : Instr) : Laws.EncodeRow.Statement i := by
  cases i with
  | init => exact Laws.EncodeRow.init
  | setch ch on off => exact Laws.EncodeRow.setch ch on off
  | step p d => exact Laws.EncodeRow.step p d
  | servo deg => exact Laws.EncodeRow.servo deg
  | stopall => exact Laws.EncodeRow.stopall
  | setwin ch on off => exact Laws.EncodeRow.setwin ch on off
  | wrreg reg val => exact Laws.EncodeRow.wrreg reg val
  | wrcmd val => exact Laws.EncodeRow.wrcmd val
  | rdreg reg => exact Laws.EncodeRow.rdreg reg

/-- Operand assembly reads back what `encode` put into the fields. -/
theorem assemble_encode {i : Instr} (hi : i.WellFormed) :
    assemble (Laws.EncodeRow.row i).mnemonic (encode i) = i := by
  cases i with
  | init => rfl
  | stopall => rfl
  | setch ch on off =>
    obtain ⟨hch, hon, hoff⟩ := (wellFormed_setch ch on off).mp hi
    simp only [Laws.EncodeRow.row, assemble, encode, aField_pack, xField_pack, yField_pack,
      toNat_ofNat_8 hch, toNat_ofNat_16 hon, toNat_ofNat_16 hoff]
  | setwin ch on off =>
    obtain ⟨hch, hon, hoff⟩ := (wellFormed_setwin ch on off).mp hi
    simp only [Laws.EncodeRow.row, assemble, encode, aField_pack, xField_pack, yField_pack,
      toNat_ofNat_8 hch, toNat_ofNat_16 hon, toNat_ofNat_16 hoff]
  | step p d =>
    have hp : pairOf (encode (.step p d)) = p := pairOf_of_aField (aField_pack ..)
    have hd : dirOf (encode (.step p d)) = d := dirOf_of_xField (xField_pack ..)
    simp only [Laws.EncodeRow.row, assemble, hp, hd]
  | servo deg =>
    obtain ⟨hlo, hhi⟩ := (wellFormed_servo deg).mp hi
    simp only [Laws.EncodeRow.row, assemble, encode, xField_pack, sext16_enc16 hlo hhi]
  | wrreg reg val =>
    obtain ⟨hreg, hval⟩ := (wellFormed_wrreg reg val).mp hi
    simp only [Laws.EncodeRow.row, assemble, encode, aField_pack, xField_pack,
      toNat_ofNat_8 hreg, toNat_ofNat_16 hval]
  | wrcmd val =>
    have hval := (wellFormed_wrcmd val).mp hi
    simp only [Laws.EncodeRow.row, assemble, encode, xField_pack, toNat_ofNat_16 hval]
  | rdreg reg =>
    have hreg := (wellFormed_rdreg reg).mp hi
    simp only [Laws.EncodeRow.row, assemble, encode, aField_pack, toNat_ofNat_8 hreg]

/-- Settles O1: the encoded word selects its own command's row, and the fields hold the operands. -/
theorem decodeUndoesEncode : Obligations.DecodeUndoesEncode := by
  intro i hi
  obtain ⟨hrow, hselects⟩ := encode_selects_row i
  rw [decode_of_selects hrow hselects, assemble_encode hi]

/-! ## Encoding a decoded word -/

/-- Every value a field can hold is in its operand's range. -/
theorem assemble_wellFormed (m : Mnemonic) (w : Word) : (assemble m w).WellFormed := by
  have ha : (aField w).toNat ≤ 255 := by have := (aField w).isLt; omega
  have hx : (xField w).toNat ≤ 65535 := by have := (xField w).isLt; omega
  have hy : (yField w).toNat ≤ 65535 := by have := (yField w).isLt; omega
  cases m with
  | INIT => exact wellFormed_init
  | SETCH => exact (wellFormed_setch _ _ _).mpr ⟨ha, hx, hy⟩
  | STEP => exact wellFormed_step _ _
  | SERVO => exact (wellFormed_servo _).mpr (sext16_fitsS16 _)
  | STOPALL => exact wellFormed_stopall
  | SETWIN => exact (wellFormed_setwin _ _ _).mpr ⟨ha, hx, hy⟩
  | WRREG => exact (wellFormed_wrreg _ _).mpr ⟨ha, hx⟩
  | WRCMD => exact (wellFormed_wrcmd _).mpr hx
  | RDREG => exact (wellFormed_rdreg _).mpr ha

/-- A word that selects a row is put together again from its operands: the row fixes every field that
holds no operand. -/
theorem encode_assemble {w : Word} :
    ∀ r ∈ opcodeTable, r.selects w = true → encode (assemble r.mnemonic w) = w := by
  simp only [opcodeTable, List.forall_mem_cons, List.not_mem_nil, false_imp_iff, implies_true, and_true,
    word_eq_iff]
  refine ⟨fun h => ?_, fun h => ?_, fun h => ?_, fun h => ?_, fun h => ?_, fun h => ?_, fun h => ?_,
    fun h => ?_, fun h => ?_⟩
  · simp [assemble, encode, (selects_init w).mp h]
  · simp [assemble, encode, (selects_setch w).mp h]
  · obtain ⟨hop, ha, hx, hy, hz⟩ := (selects_step w).mp h
    simp [assemble, encode, pairBit_pairOf ha, dirBit_dirOf hx, hop, hy, hz]
  · simp [assemble, encode, (selects_servo w).mp h]
  · simp [assemble, encode, (selects_stopall w).mp h]
  · simp [assemble, encode, (selects_setwin w).mp h]
  · simp [assemble, encode, (selects_wrreg w).mp h]
  · simp [assemble, encode, (selects_wrcmd w).mp h]
  · simp [assemble, encode, (selects_rdreg w).mp h]

/-- Settles O2: the command comes from the fields of a word that selects its row, and the row with the
operands fixes all five fields. -/
theorem encodeUndoesDecode : Obligations.EncodeUndoesDecode := by
  intro w i h
  obtain ⟨r, hr, hs, rfl⟩ := exists_row_of_decode h
  exact ⟨assemble_wellFormed r.mnemonic w, encode_assemble r hr hs⟩

end Sys2Proof
end

section
/-! PROOFS. `encode` as the shift-and-or formulas of spec/30_encoding.md R69. -/

namespace Sys2Proof

theorem setWidth_shiftLeft_eq_ofNat {n : Nat} (x : BitVec n) (k : Nat) :
    x.setWidth 64 <<< k = BitVec.ofNat 64 (x.toNat <<< k) := by
  apply BitVec.eq_of_toNat_eq
  simp [Nat.shiftLeft_eq, Nat.mod_mul_mod]

/-- R69's formula over the fields as numbers. -/
theorem pack_eq_ofNat (op a : Byte) (x y z : Half) :
    pack op a x y z = BitVec.ofNat 64 (op.toNat <<< 56 ||| a.toNat <<< 48 ||| x.toNat <<< 32
      ||| y.toNat <<< 16 ||| z.toNat) := by
  simp only [pack, BitVec.ofNat_or, setWidth_shiftLeft_eq_ofNat, BitVec.ofNat_toNat]

theorem toNat_enc16 (v : Int) : (enc16 v).toNat = (v % 65536).toNat := by
  rw [← Machine.enc16_toNat, Int.toNat_natCast]

/-- Settles O3: a word is the shift-and-or of its fields' numbers, and an operand in its range is its
field's number. -/
theorem encodeIsTheShiftFormula : Obligations.EncodeIsTheShiftFormula := by
  refine ⟨rfl, rfl, fun ch on off hch hon hoff => ?_, fun p d => ?_, fun deg _ _ => ?_,
    fun reg val hreg hval => ?_, rfl, rfl, rfl, rfl, rfl⟩
  · simp [encode, pack_eq_ofNat, toNat_ofNat_8 hch, toNat_ofNat_16 hon, toNat_ofNat_16 hoff]
  · cases p <;> cases d <;> rfl
  · simp [encode, pack_eq_ofNat, toNat_enc16]
  · simp [encode, pack_eq_ofNat, toNat_ofNat_8 hreg, toNat_ofNat_16 hval]

end Sys2Proof
end

section
/-! PROOFS. Which words are illegal, and for which cause (spec/30_encoding.md R62, R66). -/

namespace Sys2Proof

/-! ## Must-be-zero slices as fields -/

/-! A slice is zero when its quotient and remainder of the word are; `omega` compares those. -/

theorem low32_eq_zero_iff (w : Word) :
    w.extractLsb' 0 32 = 0#32 ↔ yField w = 0#16 ∧ zField w = 0#16 := by
  simp only [yField, zField, BitVec.toNat_eq, BitVec.extractLsb'_toNat, Nat.shiftRight_eq_div_pow,
    BitVec.toNat_ofNat]
  omega

theorem low48_eq_zero_iff (w : Word) :
    w.extractLsb' 0 48 = 0#48 ↔ xField w = 0#16 ∧ yField w = 0#16 ∧ zField w = 0#16 := by
  simp only [xField, yField, zField, BitVec.toNat_eq, BitVec.extractLsb'_toNat,
    Nat.shiftRight_eq_div_pow, BitVec.toNat_ofNat]
  omega

theorem low56_eq_zero_iff (w : Word) :
    w.extractLsb' 0 56 = 0#56 ↔
      aField w = 0#8 ∧ xField w = 0#16 ∧ yField w = 0#16 ∧ zField w = 0#16 := by
  simp only [aField, xField, yField, zField, BitVec.toNat_eq, BitVec.extractLsb'_toNat,
    Nat.shiftRight_eq_div_pow, BitVec.toNat_ofNat]
  omega

/-- Field A above the bit P. -/
theorem aField_above_bit0_eq_zero_iff (w : Word) :
    w.extractLsb' 49 7 = 0#7 ↔ aField w = 0#8 ∨ aField w = 1#8 := by
  simp only [aField, BitVec.toNat_eq, BitVec.extractLsb'_toNat, Nat.shiftRight_eq_div_pow,
    BitVec.toNat_ofNat]
  omega

/-- Field X above the bit D. -/
theorem xField_above_bit0_eq_zero_iff (w : Word) :
    w.extractLsb' 33 15 = 0#15 ↔ xField w = 0#16 ∨ xField w = 1#16 := by
  simp only [xField, BitVec.toNat_eq, BitVec.extractLsb'_toNat, Nat.shiftRight_eq_div_pow,
    BitVec.toNat_ofNat]
  omega

theorem opSlice_eq (w : Word) : w.extractLsb' 56 8 = opField w := rfl

theorem aSlice_eq (w : Word) : w.extractLsb' 48 8 = aField w := rfl

theorem zSlice_eq (w : Word) : w.extractLsb' 0 16 = zField w := rfl

/-! ## What `decode` answers, by OP -/

theorem opAssigned_iff (op : Byte) :
    opAssigned op = true ↔ ∃ r ∈ opcodeTable, opField r.pattern = op := by
  simp [opAssigned]

theorem decode_of_no_row {w : Word} (h : ∀ r ∈ opcodeTable, r.selects w ≠ true) :
    decode w = .illegal
      (if opAssigned (opField w) then .nonzeroReservedBit else .unassignedOpcode) := by
  simp only [decode, List.find?_eq_none.mpr h]

theorem decode_of_unassigned {w : Word} (h : ∀ r ∈ opcodeTable, opField w ≠ opField r.pattern) :
    decode w = .illegal .unassignedOpcode := by
  rw [decode_of_no_row fun r hr hs => h r hr (opField_of_selects hr hs), if_neg]
  rw [opAssigned_iff]
  rintro ⟨r, hr, hop⟩
  exact h r hr hop.symm

/-- A word with a row's OP that does not select the row selects none: a reserved bit is set. -/
theorem decode_of_not_selects {r : OpcodeRow} {w : Word} (hr : r ∈ opcodeTable)
    (hop : opField w = opField r.pattern) (hs : r.selects w ≠ true) :
    decode w = .illegal .nonzeroReservedBit := by
  have hnone : ∀ r' ∈ opcodeTable, r'.selects w ≠ true := by
    intro r' hr' hs'
    have hrow := row_eq_of_opField_eq r hr r' hr' (hop.symm.trans (opField_of_selects hr' hs'))
    exact hs (hrow ▸ hs')
  rw [decode_of_no_row hnone, if_pos]
  exact (opAssigned_iff _).mpr ⟨r, hr, hop.symm⟩

/-- The three outcomes of a word with a row's OP, `R` saying that a reserved bit of the row is set. -/
theorem decode_cases_of_opField {r : OpcodeRow} {w : Word} {R : Prop} (hr : r ∈ opcodeTable)
    (hop : opField w = opField r.pattern) (hR : ¬ R ↔ r.selects w = true) :
    decode w ≠ .illegal .unassignedOpcode ∧ (decode w = .illegal .nonzeroReservedBit ↔ R)
      ∧ ((∃ i, decode w = .command i) ↔ ¬ R) := by
  by_cases hs : r.selects w = true
  · simp [decode_of_selects hr hs, hR.mpr hs]
  · simp [decode_of_not_selects hr hop hs, not_not.mp (mt hR.mp hs)]

/-- The assigned OP values of R66 (a) are those of the opcode map's rows. -/
theorem assigned_iff_exists_row (w : Word) :
    (opField w).toNat ∈ [0x01, 0x02, 0x03, 0x04, 0x05, 0x10, 0x11, 0x12, 0x13] ↔
      ∃ r ∈ opcodeTable, opField w = opField r.pattern := by
  have hops : opcodeTable.map (fun r => (opField r.pattern).toNat)
      = [0x01, 0x02, 0x03, 0x04, 0x05, 0x10, 0x11, 0x12, 0x13] := rfl
  simp only [← hops, List.mem_map, BitVec.toNat_inj, eq_comm]

/-- Settles O5: with OP a row's, the row is selected exactly when the must-be-zero bits of its format
are zero; with OP no row's, no row is. -/
theorem illegalWordsExactly : Obligations.IllegalWordsExactly := by
  unfold Obligations.IllegalWordsExactly
  intro reserved assigned w
  have hassigned : assigned w ↔ ∃ r ∈ opcodeTable, opField w = opField r.pattern :=
    assigned_iff_exists_row w
  have hreserved : ∀ r ∈ opcodeTable, opField w = opField r.pattern →
      (¬ reserved w ↔ r.selects w = true) := by
    simp only [opcodeTable, List.forall_mem_cons, List.not_mem_nil, false_imp_iff, implies_true,
      and_true]
    refine ⟨?_, ?_, ?_, ?_, ?_, ?_, ?_, ?_, ?_⟩
    · intro (hop : opField w = 0x01#8)
      simp [reserved, opSlice_eq, selects_init, hop, low56_eq_zero_iff]
    · intro (hop : opField w = 0x02#8)
      simp [reserved, opSlice_eq, selects_setch, hop, zSlice_eq]
    · intro (hop : opField w = 0x03#8)
      simp [reserved, opSlice_eq, selects_step, hop, aField_above_bit0_eq_zero_iff,
        xField_above_bit0_eq_zero_iff, low32_eq_zero_iff, or_iff_not_imp_left]
    · intro (hop : opField w = 0x04#8)
      simp [reserved, opSlice_eq, selects_servo, hop, aSlice_eq, low32_eq_zero_iff]
    · intro (hop : opField w = 0x05#8)
      simp [reserved, opSlice_eq, selects_stopall, hop, low56_eq_zero_iff]
    · intro (hop : opField w = 0x10#8)
      simp [reserved, opSlice_eq, selects_setwin, hop, zSlice_eq]
    · intro (hop : opField w = 0x11#8)
      simp [reserved, opSlice_eq, selects_wrreg, hop, low32_eq_zero_iff]
    · intro (hop : opField w = 0x12#8)
      simp [reserved, opSlice_eq, selects_wrcmd, hop, aSlice_eq, low32_eq_zero_iff]
    · intro (hop : opField w = 0x13#8)
      simp [reserved, opSlice_eq, selects_rdreg, hop, low48_eq_zero_iff]
  by_cases h : ∃ r ∈ opcodeTable, opField w = opField r.pattern
  · obtain ⟨r, hr, hop⟩ := h
    obtain ⟨hunassigned, hnonzero, hcommand⟩ := decode_cases_of_opField hr hop (hreserved r hr hop)
    simp [hassigned.mpr ⟨r, hr, hop⟩, hunassigned, hnonzero, hcommand]
  · have hdecode : decode w = .illegal .unassignedOpcode :=
      decode_of_unassigned fun r hr hop => h ⟨r, hr, hop⟩
    simp [hdecode, mt hassigned.mp h]

end Sys2Proof
end

section
/-! PROOFS. The host's side: the assembler (spec/30_encoding.md R68) and the Motion Facade (R75 to
R79). -/

namespace Sys2Proof.Machine

/-! ## What a mnemonic with operands assembles to -/

@[simp] theorem unsignedOperand_natCast (n : Nat) : unsignedOperand n = some n := by
  simp [unsignedOperand]

@[simp] theorem unsignedOperand_negSucc (n : Nat) : unsignedOperand (Int.negSucc n) = none := rfl

theorem assembleParts_of_some {m : Mnemonic} {ops : List AsmOperand} {i : Instr}
    (h : buildCommand m ops = some i) :
    assembleParts m ops = if i.WellFormed then .command i else .error := by
  simp only [assembleParts, h]

theorem assembleParts_of_none {m : Mnemonic} {ops : List AsmOperand} (h : buildCommand m ops = none) :
    assembleParts m ops = .error := by
  simp only [assembleParts, h]

theorem assembleParts_eq_command_iff {m : Mnemonic} {ops : List AsmOperand} {i : Instr} :
    assembleParts m ops = .command i ↔ buildCommand m ops = some i ∧ i.WellFormed := by
  cases h : buildCommand m ops with
  | none => simp [assembleParts_of_none h]
  | some j =>
    rw [assembleParts_of_some h, Option.some_inj]
    constructor
    · intro hc
      split at hc
      · next hj =>
        cases hc
        exact ⟨rfl, hj⟩
      · contradiction
    · rintro ⟨rfl, hj⟩
      exact if_pos hj

/-- SETCH and SETWIN have the same operands. -/
theorem assembleParts_window (ch on off : Int) :
    assembleParts .SETCH [.num ch, .num on, .num off] =
      (if (0 ≤ ch ∧ ch ≤ 255) ∧ (0 ≤ on ∧ on ≤ 65535) ∧ 0 ≤ off ∧ off ≤ 65535
      then .command (.setch ch.toNat on.toNat off.toNat) else .error)
    ∧ assembleParts .SETWIN [.num ch, .num on, .num off] =
      (if (0 ≤ ch ∧ ch ≤ 255) ∧ (0 ≤ on ∧ on ≤ 65535) ∧ 0 ≤ off ∧ off ≤ 65535
      then .command (.setwin ch.toNat on.toNat off.toNat) else .error) := by
  cases ch with
  | negSucc => simp [assembleParts, buildCommand]
  | ofNat =>
    cases on with
    | negSucc => simp [assembleParts, buildCommand]
    | ofNat =>
      cases off with
      | negSucc => simp [assembleParts, buildCommand]
      | ofNat => simp [assembleParts, buildCommand]

theorem assembleParts_wrreg (reg v : Int) :
    assembleParts .WRREG [.num reg, .num v] =
      if (0 ≤ reg ∧ reg ≤ 255) ∧ 0 ≤ v ∧ v ≤ 65535
      then .command (.wrreg reg.toNat v.toNat) else .error := by
  cases reg with
  | negSucc => simp [assembleParts, buildCommand]
  | ofNat =>
    cases v with
    | negSucc => simp [assembleParts, buildCommand]
    | ofNat => simp [assembleParts, buildCommand]

theorem assembleParts_wrcmd (v : Int) :
    assembleParts .WRCMD [.num v] =
      if 0 ≤ v ∧ v ≤ 65535 then .command (.wrcmd v.toNat) else .error := by
  cases v with
  | negSucc => simp [assembleParts, buildCommand]
  | ofNat => simp [assembleParts, buildCommand]

theorem assembleParts_rdreg (v : Int) :
    assembleParts .RDREG [.num v] =
      if 0 ≤ v ∧ v ≤ 255 then .command (.rdreg v.toNat) else .error := by
  cases v with
  | negSucc => simp [assembleParts, buildCommand]
  | ofNat => simp [assembleParts, buildCommand]

theorem assembleParts_servo (v : Int) :
    assembleParts .SERVO [.num v] =
      if -32768 ≤ v ∧ v ≤ 32767 then .command (.servo v) else .error := by
  simp [assembleParts, buildCommand]

/-! ## Lines and commands -/

theorem assembleLine_wellFormed {line : List Char} {i : Instr} (h : assembleLine line = .command i) :
    i.WellFormed := by
  simp only [assembleLine] at h
  split at h
  · contradiction
  · split at h
    · exact (assembleParts_eq_command_iff.mp h).2
    · contradiction

/-- Every command has an operand list that builds it. -/
theorem exists_buildCommand (i : Instr) : ∃ m ops, buildCommand m ops = some i := by
  cases i with
  | init => exact ⟨.INIT, [], rfl⟩
  | setch ch on off => exact ⟨.SETCH, [.num ch, .num on, .num off], by simp [buildCommand]⟩
  | step p d => exact ⟨.STEP, [.pair p, .dir d], rfl⟩
  | servo deg => exact ⟨.SERVO, [.num deg], rfl⟩
  | stopall => exact ⟨.STOPALL, [], rfl⟩
  | setwin ch on off => exact ⟨.SETWIN, [.num ch, .num on, .num off], by simp [buildCommand]⟩
  | wrreg reg val => exact ⟨.WRREG, [.num reg, .num val], by simp [buildCommand]⟩
  | wrcmd val => exact ⟨.WRCMD, [.num val], by simp [buildCommand]⟩
  | rdreg reg => exact ⟨.RDREG, [.num reg], by simp [buildCommand]⟩

/-- Settles O57: each mnemonic's operands give its command exactly in their ranges, another list builds
no command, and only a well-formed command passes the range check. -/
theorem assemblerKeepsTheRanges : Obligations.AssemblerKeepsTheRanges := by
  unfold Obligations.AssemblerKeepsTheRanges
  intro fits shaped
  refine ⟨⟨rfl, rfl⟩, fun ch on off => ?_, fun q d => rfl, fun v => ?_, fun reg v => ?_,
    fun m ops hshape => ?_, fun line i h => assembleLine_wellFormed h, fun i hi => ?_⟩
  · obtain ⟨hsetch, hsetwin⟩ := assembleParts_window ch on off
    rw [hsetch, hsetwin]
    exact ⟨fun h => ⟨if_pos h, if_pos h⟩, fun h => ⟨if_neg h, if_neg h⟩⟩
  · rw [assembleParts_servo, assembleParts_wrcmd, assembleParts_rdreg]
    exact ⟨(if_pos ·), (if_neg ·), (if_pos ·), (if_neg ·), (if_pos ·), (if_neg ·)⟩
  · rw [assembleParts_wrreg]
    exact ⟨(if_pos ·), (if_neg ·)⟩
  · apply assembleParts_of_none
    unfold buildCommand
    split
    case h_10 => rfl
    all_goals exact absurd trivial hshape
  · obtain ⟨m, ops, hbuild⟩ := exists_buildCommand i
    exact ⟨m, ops, assembleParts_eq_command_iff.mpr ⟨hbuild, hi⟩⟩

/-! ## The Motion Facade -/

/-- Settles O56: each operation is defined as its list of commands and holds. -/
theorem hostSequences : Obligations.HostSequences :=
  ⟨fun _ _ => ⟨rfl, rfl⟩, fun _ => ⟨rfl, rfl⟩, fun _ _ _ => rfl, rfl, rfl, rfl⟩

end Sys2Proof.Machine
end

section
/-! PROOFS. Every command's pseudocode, written out primitive by primitive (spec/40_codec.md R80 to R87,
spec/41_pwm_driver.md R90 to R95, spec/42_stepper.md R100, R104, spec/43_servo.md R110, R111). -/

namespace Sys2Proof.Machine

/-! ## The values the procedures compute -/

/-- The divisor of R111 is positive, so rounding toward minus infinity is the Euclidean quotient. -/
theorem servoTick_eq (deg : Int) : servoTick deg = (10 * deg + 600) * 4096 / 20000 := by
  have hfloor (a : Int) : floorDiv a 20000 = a / 20000 := Int.fdiv_eq_ediv_of_nonneg a (by decide)
  have hpulse : pulseUs deg = 10 * deg + 600 := congrArg (· + (600 : Int)) (Int.mul_comm deg 10)
  rw [← hpulse]
  exact hfloor _

theorem trunc8_natCast (v : Nat) : trunc8 v = BitVec.ofNat 8 (v % 256) := by
  apply BitVec.eq_of_toNat_eq
  simp [trunc8, lo8]

/-! ## From procedures to primitives -/

/-- `Chan` performs EnsureInit's primitives, then `Win`'s (R95). -/
theorem chan_eq_windowOps (p : Params) (c : Nat) (on off : Int) (f : Bool) :
    chan p c on off f = ((if f then [] else initOps p) ++ windowOps p c on off, true) := by
  simp [chan, ensureInit_eq, win_eq_windowOps]

/-- Only the first EnsureInit of a command can find the flag clear. -/
theorem commandProc_eq_ruleOps (p : Params) (i : Instr) (f : Bool) :
    (commandProc p i f).1 = ruleOps p f i := by
  cases i with
  | init => simp [commandProc, initProc, respondOk, ensureInit_eq, ruleOps, ruleOps.start]
  | setch ch on off =>
    simp [commandProc, setchProc, respondOk, chan_eq_windowOps, ruleOps, ruleOps.start]
  | step q d =>
    simp [commandProc, stepProc, respondOk, coils, chan_eq_windowOps, phaseOn, phaseOff,
      PhaseTable.win, ruleOps, ruleOps.start]
  | servo deg =>
    simp only [commandProc, servoProc, Proc.andThen_apply, chan_eq_windowOps]
    simp [respondOk, servoTick_eq, ruleOps, ruleOps.start]
  | stopall =>
    simp only [commandProc, stopallProc, motorIndices, List.map_cons, List.map_nil,
      Proc.inOrder_cons, Proc.andThen_apply, chan_eq_windowOps]
    simp [respondOk, motorCh, Config.N_MOTOR, ruleOps, ruleOps.start]
  | setwin ch on off => simp [commandProc, setwinProc, respondOk, win_eq_windowOps, ruleOps]
  | wrreg reg val => simp [commandProc, wrregProc, regWrite, respondOk, trunc8_natCast, ruleOps]
  | wrcmd val => simp [commandProc, wrcmdProc, cmdWrite, respondOk, trunc8_natCast, ruleOps]
  | rdreg reg => simp [commandProc, rdregProc, regRead, ruleOps]

/-- Settles O25: a command runs its pseudocode, and its pseudocode is its rule's primitives. -/
theorem execRunsThePseudocode : Obligations.ExecRunsThePseudocode := by
  intro i s
  rw [exec_eq, commandProc_eq_ruleOps]

end Sys2Proof.Machine
end

section
/-! PROOFS. The raw codec commands, undisturbed, and the state they leave (spec/40_codec.md R80 to
R84). -/

namespace Sys2Proof.Machine

/-! ## What an undisturbed run leaves -/

/-- Plain writes and a response: one event for each write, one move for each primitive. The flag is as it
was, and no read is made. -/
theorem runOps_writes_respond {l : List Op} (hl : onlyWrites l) (s : State)
    (h : s.quietFor (l.length + 1)) (st : Status) (x d : Byte) :
    runOps (l ++ [.respond st x]) s
      = s.completed (opEvents s.params d l) s.initFlag ⟨st, x⟩ (l.length + 1) 0 := by
  induction l generalizing s with
  | nil =>
    rw [List.nil_append, runOps_go _ _ (State.inputDue_of_quietFor h)]
    simp [State.completed, State.respond, State.tick]
  | cons op l ih =>
    obtain ⟨⟨bytes, rfl⟩, hrest⟩ := List.forall_mem_cons.mp hl
    have hquiet : (s.tick.perform (.busWrite bytes)).quietFor (l.length + 1) :=
      State.quietFor_tick h
    rw [List.cons_append, runOps_go _ _ (State.inputDue_of_quietFor h), ih hrest _ hquiet]
    simp [State.completed, State.emit, State.tick, laterSchedule_add, Nat.add_comm]

theorem windowOps_onlyWrites (p : Params) (c : Nat) (on off : Int) :
    onlyWrites (windowOps p c on off) := by
  unfold windowOps
  split <;> simp [onlyWrites]

/-- `Win`'s primitives emit the window event R44 gives. -/
theorem opEvents_windowOps (p : Params) (d : Byte) (ch on off : Nat) :
    opEvents p d (windowOps p ch on off) = windowEvents p ch on off := by
  by_cases h : ch ≤ 15 <;> simp [windowOps, windowEvents, windowWrite, h]

theorem length_windowOps (p : Params) (ch on off : Nat) :
    (windowOps p ch on off).length = (windowEvents p ch on off).length := by
  by_cases h : ch ≤ 15 <;> simp [windowOps, windowEvents, h]

/-- A command whose rule is plain writes and OK, undisturbed. The byte `d` stands for a read's answer,
which no write uses. -/
theorem exec_writes {i : Instr} {s : State} {l : List Op} (hl : onlyWrites l)
    (hrule : ruleOps s.params s.initFlag i = l ++ [.respond .ok 0x00])
    (h : s.quietFor (l.length + 1)) (d : Byte) :
    exec i s
      = .next (s.completed (opEvents s.params d l) s.initFlag ⟨.ok, 0x00⟩ (l.length + 1) 0) := by
  rw [execRunsThePseudocode, hrule, runOps_writes_respond hl s h]

/-! ## SETWIN's word -/

/-- A nonzero reserved bit in [15:0] keeps a word with SETWIN's OP from selecting SETWIN's row (R80). -/
theorem decode_setwin_reserved {w : Word} (hop : opField w = 0x10#8) (hz : zField w ≠ 0#16) :
    decode w = .illegal .nonzeroReservedBit := by
  have hrow : Laws.EncodeRow.row (.setwin 0 0 0) ∈ opcodeTable := (Laws.EncodeRow.setwin 0 0 0).1
  refine decode_of_not_selects hrow hop fun hs => hz ?_
  obtain ⟨-, hzero⟩ := (selects_setwin w).mp hs
  exact hzero

/-! ## The four commands -/

/-- Settles O15: a run of at most one window write; and reserved bits make the word illegal. -/
theorem setwinCompletes : Obligations.SetwinCompletes := by
  refine ⟨?_, fun w hop hz => decode_setwin_reserved hop hz⟩
  intro s ch on off evs hquiet
  refine ⟨by simp [opSlice_eq, encode], ?_⟩
  have hexec := exec_writes (i := .setwin ch on off) (windowOps_onlyWrites s.params ch on off) rfl
    (by rwa [length_windowOps]) 0
  rwa [opEvents_windowOps, length_windowOps] at hexec

/-- Settles O16: a run of one write of two bytes. -/
theorem wrregCompletes : Obligations.WrregCompletes := by
  intro s reg val hquiet
  refine ⟨by simp [opSlice_eq, encode], ?_⟩
  exact exec_writes (l := [.busWrite [BitVec.ofNat 8 reg, BitVec.ofNat 8 (val % 256)]])
    (by simp [onlyWrites]) rfl hquiet 0

/-- Settles O17: a run of one write of one byte. -/
theorem wrcmdCompletes : Obligations.WrcmdCompletes := by
  intro s val hquiet
  refine ⟨by simp [opSlice_eq, encode], ?_⟩
  exact exec_writes (l := [.busWrite [BitVec.ofNat 8 (val % 256)]])
    (by simp [onlyWrites]) rfl hquiet 0

/-- Settles O18: a run of one read and the response with the byte read. -/
theorem rdregCompletes : Obligations.RdregCompletes := by
  intro s reg hquiet
  refine ⟨by simp [opSlice_eq, encode], ?_⟩
  rw [exec_rdreg_quiet s reg hquiet]
  simp [State.completed, State.perform, State.emit, State.respond, State.tick, State.busAnswer,
    laterSchedule_add]

end Sys2Proof.Machine
end

section
/-! PROOFS. The PWM driver's commands INIT and SETCH, undisturbed, and the values EnsureInit sends
(spec/41_pwm_driver.md R90 to R96). -/

namespace Sys2Proof.Machine

/-! ## The prescaler (R92) -/

/-- The divisor of R92 is not negative, so rounding toward minus infinity is the quotient of Nat. -/
theorem prescale_eq (f : Nat) : prescale f = ((25000000 / (4096 * f) : Nat) : Int) - 1 := by
  have hfloor : floorDiv 25000000 ((4096 : Int) * f) = 25000000 / ((4096 : Int) * f) :=
    Int.fdiv_eq_ediv_of_nonneg _ (by omega)
  push_cast
  exact congrArg (· - 1) hfloor

/-- Settles O46: dividing by 4096 and then by f is dividing by their product. -/
theorem prescalerFormula : Obligations.PrescalerFormula := by
  refine ⟨fun f _ => ⟨prescale_eq f, ?_⟩, by decide, by decide⟩
  rw [Nat.div_div_eq_div_mul, prescale_eq]

/-! ## EnsureInit's events (R93, R96) -/

theorem opEvents_ensureInit (p : Params) (b : Byte) :
    opEvents p b (ensureInit p false).1 = initSeq p b := by
  rw [ensureInit_eq]
  exact opEvents_initOps p b

/-- Settles O26: the write of the flag is the last of EnsureInit's eight primitives, and each of the
seven before it gives its event. -/
theorem initializationEvents : Obligations.InitializationEvents := by
  intro p b
  refine ⟨(initOps p).dropLast, ?_, ?_, ?_, opEvents_ensureInit p b, ensureInit_flag p false,
    ensureInit_running p⟩
  · simp [ensureInit_eq, initOps]
  · simp [initOps]
  · simp [initOps, Op.event, and_allOnes_byte]

theorem getLsbD_sleep_keep : ∀ j < 8, (0x7F#8).getLsbD j = decide (j ≠ 7) := by decide

theorem getLsbD_sleep_set : ∀ j < 8, (0x10#8).getLsbD j = decide (j = 4) := by decide

theorem getLsbD_restart_set : ∀ j < 8, (0xA0#8).getLsbD j = decide (j = 7 ∨ j = 5) := by decide

theorem getLsbD_sleepByte (b : Byte) {j : Nat} (hj : j < 8) :
    ((b &&& 0x7F#8) ||| 0x10#8).getLsbD j
      = ((b.getLsbD j && decide (j ≠ 7)) || decide (j = 4)) := by
  rw [BitVec.getLsbD_or, BitVec.getLsbD_and, getLsbD_sleep_keep j hj, getLsbD_sleep_set j hj]

theorem getLsbD_restartByte (b : Byte) {j : Nat} (hj : j < 8) :
    (b ||| 0xA0#8).getLsbD j = (b.getLsbD j || decide (j = 7 ∨ j = 5)) := by
  rw [BitVec.getLsbD_or, getLsbD_restart_set j hj]

/-- Settles O51: the two bytes bit by bit; the bits outside the masks are those of the byte read. -/
theorem modeByteBits : Obligations.ModeByteBits := by
  intro p b evs
  have hevs : evs = initSeq p b := opEvents_ensureInit p b
  rw [hevs]
  refine ⟨(b &&& 0x7F#8) ||| 0x10#8, b ||| 0xA0#8, rfl, rfl, rfl, ?_, ?_, fun j hj h4 h7 => ?_,
    ?_, ?_, fun j hj h7 h5 => ?_⟩
  · simp
  · simp
  · simp [getLsbD_sleepByte b hj, h4, h7]
  · simp
  · simp
  · simp [getLsbD_restartByte b hj, h7, h5]

/-! ## Driver-level commands, undisturbed -/

/-- A command whose rule is EnsureInit, plain writes and OK, undisturbed. The byte `d` stands for a
read's answer, which no plain write uses. -/
theorem exec_initialize_writes {i : Instr} {s : State} {l : List Op} (hl : onlyWrites l)
    (hrule : ruleOps s.params s.initFlag i
      = ruleOps.start s.params s.initFlag ++ (l ++ [.respond .ok 0x00]))
    (h : s.quietFor (initMoves s + l.length + 1)) (d : Byte) :
    exec i s
      = .next (s.completed (initEvents s ++ opEvents s.params d l) true ⟨.ok, 0x00⟩
          (initMoves s + l.length + 1) (initReads s)) := by
  have hstart : ruleOps.start s.params s.initFlag = (ensureInit s.params s.initFlag).1 :=
    (congrArg Prod.fst (ensureInit_eq s.params s.initFlag)).symm
  obtain ⟨ph, hrun⟩ := runOps_ensureInit s (l ++ [.respond .ok 0x00])
    (by simpa [Nat.add_assoc] using h)
  rw [execRunsThePseudocode, hrule, hstart, hrun,
    runOps_writes_respond hl _ (quietFor_later h rfl) .ok 0x00 d]
  simp [State.completed, laterSchedule_add, Nat.add_assoc]

/-- Settles O19: EnsureInit, no write, and the response. -/
theorem initCompletes : Obligations.InitCompletes := by
  intro s hquiet
  refine ⟨by decide, ?_⟩
  simpa using exec_initialize_writes (i := .init) (l := []) (by simp [onlyWrites]) rfl hquiet 0

/-- Settles O20: EnsureInit, at most one window write, and the response. -/
theorem setchCompletes : Obligations.SetchCompletes := by
  intro s ch on off evs hquiet
  refine ⟨by simp [opSlice_eq, encode], ?_⟩
  have hexec := exec_initialize_writes (i := .setch ch on off)
    (windowOps_onlyWrites s.params ch on off) (List.append_assoc _ _ _)
    (by rwa [length_windowOps]) 0
  rwa [opEvents_windowOps, length_windowOps] at hexec

end Sys2Proof.Machine
end

section
/-! PROOFS. At most one initialization between two resets, and none once the flag is set
(spec/41_pwm_driver.md R97, spec/20_memory.md R51). -/

namespace Sys2Proof.Machine

/-! ## One delay request at most -/

@[simp] theorem isDelay_W (a : BitVec 7) (bytes : List Byte) : (Event.W a bytes).isDelay = false := rfl

@[simp] theorem isDelay_WR (a : BitVec 7) (r d : Byte) : (Event.WR a r d).isDelay = false := rfl

@[simp] theorem isDelay_DLY (n : Nat) : (Event.DLY n).isDelay = true := rfl

@[simp] theorem countP_isDelay_initSeq (p : Params) (b : Byte) :
    (initSeq p b).countP Event.isDelay = 1 := rfl

theorem countP_isDelay_of_onlyWrites {l : List Op} (hl : onlyWrites l) (p : Params) (d : Byte) :
    (opEvents p d l).countP Event.isDelay = 0 := by
  induction l with
  | nil => rfl
  | cons op l ih =>
    obtain ⟨⟨bytes, rfl⟩, hrest⟩ := List.forall_mem_cons.mp hl
    simpa using ih hrest

/-- A word's pseudocode requests a delay only where it takes the flag from false to true. -/
theorem wordProc_countP_isDelay (p : Params) (w : Word) (f : Bool) (d : Byte) :
    (opEvents p d (wordProc p w f).1).countP Event.isDelay + f.toNat ≤ (wordProc p w f).2.toNat := by
  cases wordProc_shape p w with
  | driver l hl h =>
    cases f <;> simp [h, opEvents_ensureInit, countP_isDelay_of_onlyWrites hl]
  | raw l hl st h => simp [h, countP_isDelay_of_onlyWrites hl]
  | read reg h => simp [h]

/-- Whole words have requested a delay only if they have set the flag. -/
theorem Served.countP_isDelay_le {p : Params} {f : Bool} {l : List Event} {rs : List Response}
    (h : Served p f l rs) : l.countP Event.isDelay ≤ f.toNat := by
  induction h with
  | atReset => simp
  | @word f l rs w d _ ih =>
    have hword := wordProc_countP_isDelay p w f d
    rw [List.countP_append]
    omega

/-- The command in flight has emitted no more delays than all of its pseudocode would. -/
theorem BlockInvariant.countP_isDelay_le_one {s : State} (hI : BlockInvariant s) :
    s.log.countP Event.isDelay ≤ 1 := by
  cases hp : s.phase with
  | idle =>
    obtain ⟨-, hserved⟩ := (blockInvariant_idle hp).mp hI
    exact hserved.countP_isDelay_le.trans (Bool.toNat_le _)
  | busy c i todo =>
    obtain ⟨f, l, d, done, h⟩ := (blockInvariant_busy hp).mp hI
    have hword := wordProc_countP_isDelay s.params c f d
    have hflag := Bool.toNat_le (wordProc s.params c f).2
    have hserved := h.served.countP_isDelay_le
    rw [h.split, opEvents_append, List.countP_append] at hword
    rw [h.log_eq, List.countP_append]
    omega

/-! ## One place of the initialization sequence -/

theorem delay_notMem_around {l m : List Event} {n : Nat}
    (h : (l ++ .DLY n :: m).countP Event.isDelay ≤ 1) : .DLY n ∉ l ∧ .DLY n ∉ m := by
  rw [List.countP_append, List.countP_cons_of_pos rfl] at h
  have hl : l.countP Event.isDelay = 0 := by omega
  have hm : m.countP Event.isDelay = 0 := by omega
  exact ⟨fun hmem => List.countP_eq_zero.mp hl _ hmem rfl,
    fun hmem => List.countP_eq_zero.mp hm _ hmem rfl⟩

/-- A log's only delay request tells where the initialization sequence stands in it. -/
theorem initSeq_place_unique {p : Params} {log x y x' y' : List Event} {b b' : Byte}
    (hone : log.countP Event.isDelay ≤ 1) (h : log = x ++ initSeq p b ++ y)
    (h' : log = x' ++ initSeq p b' ++ y') : x = x' ∧ b = b' ∧ y = y' := by
  have haround (u v : List Event) (c : Byte) : u ++ initSeq p c ++ v
      = (u ++ (initSeq p c).take 5) ++ .DLY 5000 :: ((initSeq p c).drop 6 ++ v) := by simp [initSeq]
  rw [haround] at h h'
  obtain ⟨hbefore, hafter⟩ := delay_notMem_around (h ▸ hone)
  obtain ⟨hfirst, -, hlast⟩ :=
    (List.append_cons_inj_of_notMem hbefore hafter).mp (h.symm.trans h')
  obtain ⟨hx, hseq⟩ := List.append_inj' hfirst rfl
  obtain ⟨-, hy⟩ := List.append_inj hlast rfl
  have hread : Event.WR p.devAddr p.regMode b = .WR p.devAddr p.regMode b' :=
    Option.some.inj (congrArg (·[1]?) hseq)
  exact ⟨hx, by simpa using hread, hy⟩

/-! ## A step of a Running block -/

/-- On a Running block a command in flight has only such primitives to do as it has on a block that was
Running from its start. -/
theorem InFlight.todo_isSuffix {s : State} {c : Word} {i : Nat} {todo done : List Op} {f : Bool}
    {l : List Event} {d : Byte} (h : InFlight s c i todo f l d done) (hflag : s.initFlag = true) :
    todo <:+ (wordProc s.params c true).1 := by
  cases f with
  | true => exact ⟨done, h.split.symm⟩
  | false =>
    have hsplit := h.split
    have hmem : Op.setInitFlag ∈ done := by simpa [h.flag_eq] using hflag
    have hall : Op.setInitFlag ∈ (wordProc s.params c false).1 := by simp [hsplit, hmem]
    cases wordProc_shape s.params c with
    | driver m hm hshape =>
      rw [hshape, ensureInit_eq] at hsplit
      obtain ⟨r, rfl⟩ := initOps_isPrefix_of_setInitFlag_mem hsplit.symm hmem
      refine ⟨r, ?_⟩
      rw [hshape]
      simpa using hsplit.symm
    | raw m hm st hshape => simp [hshape, setInitFlag_notMem_of_onlyWrites hm] at hall
    | read reg hshape => simp [hshape] at hall

/-- A run inside a command emits the events of a first part of it. -/
theorem WellOrdered.runOps_log {r : Bool} {l : List Op} (h : WellOrdered r l) (s : State) :
    ∃ d a, a <+: l ∧ (runOps l s).log = s.log ++ opEvents s.params d a := by
  rcases runOps_cases h.ne_nil s with ⟨a, op, b, rfl, -, hrun⟩ | ⟨a, op, rfl, hrun⟩
  · refine ⟨s.readByte r, a, List.prefix_append _ _, ?_⟩
    rw [hrun]
    exact (performed_performAll h (List.cons_ne_nil op b)).log_eq
  · obtain ⟨x, hx⟩ := (h.of_append (by simp)).perform_last (performAll a s).tick
    refine ⟨s.readByte r, a, List.prefix_append _ _, ?_⟩
    rw [hrun, hx]
    exact (performed_performAll (s := s) h (List.cons_ne_nil op [])).log_eq

/-- A step of a Running block is a reset, emits nothing, or emits the events of a part of the current
word's pseudocode without its initialization. -/
theorem BlockInvariant.running_step_log {s t : State} (hI : BlockInvariant s)
    (hflag : s.initFlag = true) (h : step s = .next t) :
    (∃ rest, s.schedule = (0, .reset) :: rest) ∨ t.log = s.log
      ∨ ∃ c d a, s.current = some c ∧ a <:+: (wordProc s.params c true).1
          ∧ t.log = s.log ++ opEvents s.params d a := by
  rcases Machine.step_cases h with ⟨e, rest, hs, rfl⟩ | ⟨-, c, i, op, rest, hp, rfl⟩
    | ⟨-, -, -, rfl⟩ | ⟨hd, hp, w, rest, l, hport, -⟩
  · cases e with
    | wait => exact .inr (.inl rfl)
    | reset => exact .inl ⟨rest, hs⟩
  · obtain ⟨f, l, d, done, hplace⟩ := (blockInvariant_busy hp).mp hI
    obtain ⟨d', a, ha, hlog⟩ := hplace.wellOrdered.runOps_log s
    exact .inr (.inr ⟨c, d', a, by simp [State.current, hp],
      ha.isInfix.trans (hplace.todo_isSuffix hflag).isInfix, hlog⟩)
  · exact .inr (.inl rfl)
  · rw [step_accepts hd hp hport, hflag] at h
    cases h
    obtain ⟨d, a, ha, hlog⟩ :=
      (wordProc_wellOrdered s.params w true).runOps_log (s.accept w rest)
    exact .inr (.inr ⟨w, d, a, by simp [State.current, hp, hport], ha.isInfix, hlog⟩)

theorem opEvents_subset {a l : List Op} (h : a ⊆ l) (p : Params) (d : Byte) :
    opEvents p d a ⊆ opEvents p d l := List.filterMap_subset _ h

/-- A word that starts on a Running block requests no delay. -/
theorem wordProc_running_no_delay (p : Params) (w : Word) (d : Byte) :
    ∀ e ∈ opEvents p d (wordProc p w true).1, e.isDelay = false := by
  have hcount := wordProc_countP_isDelay p w true d
  have hflag := Bool.toNat_le (wordProc p w true).2
  have hzero : (opEvents p d (wordProc p w true).1).countP Event.isDelay = 0 := by
    simp only [Bool.toNat_true] at hcount
    omega
  simpa [List.countP_eq_zero] using hzero

/-! ## The events of a driver-level command on a Running block -/

/-- Only T-WIN events (R44). -/
def windowsOnly (p : Params) (evs : List Event) : Prop :=
  ∀ e ∈ evs, ∃ c on off, e = windowWrite p c on off

@[simp] theorem windowsOnly_append (p : Params) (l m : List Event) :
    windowsOnly p (l ++ m) ↔ windowsOnly p l ∧ windowsOnly p m := List.forall_mem_append

@[simp] theorem windowsOnly_nil (p : Params) : windowsOnly p [] := List.forall_mem_nil _

@[simp] theorem windowsOnly_windowOps (p : Params) (d : Byte) (c : Nat) (on off : Int) :
    windowsOnly p (opEvents p d (windowOps p c on off)) := by
  unfold windowOps
  split
  · exact List.forall_mem_singleton.mpr ⟨c, on, off, rfl⟩
  · simp

theorem ruleOps_running_windowsOnly (p : Params) (d : Byte) {i : Instr}
    (hi : initializes i = true) : windowsOnly p (opEvents p d (ruleOps p true i)) := by
  cases i with
  | setwin | wrreg | wrcmd | rdreg => cases hi
  | _ => simp [ruleOps, ruleOps.start]

/-- A T-WIN event has five bytes, a write of the initialization sequence two (R96). -/
theorem windowWrite_notMem_initSeq (p : Params) (c : Nat) (on off : Int) (b : Byte) :
    windowWrite p c on off ∉ initSeq p b := by
  simp [windowWrite, initSeq]

/-- Settles O34: only EnsureInit on an Uninitialized block requests a delay, and it leaves the flag set;
what a driver-level command does on a Running block is window writes. -/
theorem atMostOneInitialization : Obligations.AtMostOneInitialization := by
  refine ⟨fun s hI => ⟨?_, fun b b' x y x' y' => initSeq_place_unique hI.countP_isDelay_le_one⟩,
    fun s t hI hflag h => ?_⟩
  · rw [← List.countP_eq_length_filter]
    exact hI.countP_isDelay_le_one
  · rcases hI.running_step_log hflag h with hreset | hlog | ⟨c, d, a, hc, ha, hlog⟩
    · exact .inl hreset
    · exact .inr ⟨[], by simpa using hlog, by simp, by simp⟩
    · have hsub := opEvents_subset ha.subset s.params d
      refine .inr ⟨_, hlog, fun e he => wordProc_running_no_delay _ c d e (hsub he), ?_⟩
      intro w i hw hdec hi e he b
      obtain rfl : c = w := Option.some.inj (hc.symm.trans hw)
      have hrule : (wordProc s.params c true).1 = ruleOps s.params true i := by
        simp only [wordProc, hdec, commandProc_eq_ruleOps]
      rw [hrule] at hsub
      obtain ⟨k, on, off, rfl⟩ := ruleOps_running_windowsOnly s.params d hi e (hsub he)
      exact windowWrite_notMem_initSeq s.params k on off b

end Sys2Proof.Machine
end

section
/-! PROOFS. Commands that write several windows in a row: the state they leave, undisturbed, and the
last window of every channel then (spec/10_state.md R35, spec/40_codec.md R81). -/

namespace Sys2Proof.Machine

/-! ## Windows in a row -/

section
variable {ι : Type} (p : Params) (d : Byte) (l : List ι) (ch : ι → Nat) (on off : ι → Int)

/-- `Win`'s primitives, once for each entry of a list, in its order. -/
def windowRunOps : List Op := l.flatMap fun k => windowOps p (ch k) (on k) (off k)

/-- The window events of a list, in its order. -/
def windowRun : List Event := l.map fun k => windowWrite p (ch k) (on k) (off k)

theorem windowRunOps_onlyWrites : onlyWrites (windowRunOps p l ch on off) := by
  intro op hop
  obtain ⟨k, -, hk⟩ := List.mem_flatMap.mp hop
  exact windowOps_onlyWrites p (ch k) (on k) (off k) op hk

variable {l ch}

/-- On channels of 0..15, `Win` is one primitive for each entry. -/
theorem windowRunOps_eq_map (h : ∀ k ∈ l, ch k ≤ 15) :
    windowRunOps p l ch on off
      = l.map fun k => .busWrite
          [ BitVec.ofNat 8 (p.regBase.val + 4 * ch k),
            BitVec.ofInt 8 (on k % 256), BitVec.ofInt 8 (on k / 256 % 256),
            BitVec.ofInt 8 (off k % 256), BitVec.ofInt 8 (off k / 256 % 256) ] := by
  rw [List.map_eq_flatMap]
  exact List.flatMap_congr fun k hk => if_pos (h k hk)

theorem length_windowRunOps (h : ∀ k ∈ l, ch k ≤ 15) :
    (windowRunOps p l ch on off).length = l.length := by
  rw [windowRunOps_eq_map p on off h, List.length_map]

theorem opEvents_windowRunOps (h : ∀ k ∈ l, ch k ≤ 15) :
    opEvents p d (windowRunOps p l ch on off) = windowRun p l ch on off := by
  rw [windowRunOps_eq_map p on off h, opEvents, List.filterMap_map, windowRun,
    ← List.filterMap_eq_map]
  rfl

end

section
variable {ι : Type} {l : List ι} {ch : ι → Nat} (on off : ι → Int)

/-- A command whose rule is EnsureInit, windows on channels of 0..15 and OK, undisturbed. -/
theorem exec_windowRun {i : Instr} {s : State} (hch : ∀ k ∈ l, ch k ≤ 15)
    (hrule : ruleOps s.params s.initFlag i
      = ruleOps.start s.params s.initFlag
        ++ (windowRunOps s.params l ch on off ++ [.respond .ok 0x00]))
    (h : s.quietFor (initMoves s + l.length + 1)) :
    exec i s
      = .next (s.completed (initEvents s ++ windowRun s.params l ch on off) true ⟨.ok, 0x00⟩
          (initMoves s + l.length + 1) (initReads s)) := by
  have hlen := length_windowRunOps s.params on off hch
  have hexec := exec_initialize_writes (windowRunOps_onlyWrites s.params l ch on off) hrule
    (by rwa [hlen]) 0
  rwa [opEvents_windowRunOps s.params 0 on off hch, hlen] at hexec

theorem State.completed_log_append (s : State) (a b : List Event) (f : Bool) (r : Response)
    (moves reads : Nat) : (s.completed (a ++ b) f r moves reads).log = s.log ++ a ++ b :=
  (List.append_assoc ..).symm

/-! ## Last windows after a run -/

variable (p : Params) (log : List Event)

theorem lastWin_windowRun_of_notMem {c : Nat} (hch : ∀ k ∈ l, ch k ≤ 15) (hc : c ≤ 15)
    (hne : ∀ k ∈ l, c ≠ ch k) :
    lastWin p (log ++ windowRun p l ch on off) c = lastWin p log c := by
  refine lastWin_append_of_no_window (fun e he => ?_) log
  obtain ⟨k, hk, rfl⟩ := List.mem_map.mp he
  exact windowOn_windowWrite_other (hch k hk) hc (hne k hk) _ _

/-- Where a run writes each of its channels once, every channel's last window is the one the run
wrote there. -/
theorem lastWin_windowRun_of_mem (hch : ∀ k ∈ l, ch k ≤ 15) (hnodup : (l.map ch).Nodup) {k : ι}
    (hk : k ∈ l) :
    lastWin p (log ++ windowRun p l ch on off) (ch k)
      = some ((enc16 (on k)).toNat, (enc16 (off k)).toNat) := by
  induction l generalizing log with
  | nil => cases hk
  | cons a l ih =>
    obtain ⟨-, hrest⟩ := List.forall_mem_cons.mp hch
    obtain ⟨ha, hnodup⟩ := List.nodup_cons.mp hnodup
    have hsplit : log ++ windowRun p (a :: l) ch on off
        = (log ++ [windowWrite p (ch a) (on a) (off a)]) ++ windowRun p l ch on off := by
      simp [windowRun]
    rw [hsplit]
    rcases List.mem_cons.mp hk with rfl | hk
    · have hne : ∀ j ∈ l, ch k ≠ ch j := fun j hj h => ha (h ▸ List.mem_map_of_mem hj)
      rw [lastWin_windowRun_of_notMem on off p _ hrest (hch k hk) hne, lastWin_append_singleton,
        windowOn_windowWrite_same, Option.some_or]
    · exact ih _ hrest hnodup hk

end

end Sys2Proof.Machine
end

section
/-! PROOFS. The channels of the stepper's coils and motors (spec/42_stepper.md R101, R105, R106). -/

namespace Sys2Proof.Machine

/-! ## Groups -/

theorem mem_groupChannels {p : Params} {q : Pair} {c : Nat} :
    c ∈ groupChannels p q ↔ groupBase p q ≤ c ∧ c < groupBase p q + 4 := by
  simp only [groupChannels, List.mem_cons, List.not_mem_nil, or_false]
  omega

theorem groupChannels_nodup (p : Params) (q : Pair) : (groupChannels p q).Nodup := by
  simp [groupChannels]

/-- The two groups are the lower and the upper four of 0..7, in either order (R106). -/
theorem groupBase_cases (p : Params) :
    groupBase p .pair1 = 4 ∧ groupBase p .pair2 = 0
      ∨ groupBase p .pair1 = 0 ∧ groupBase p .pair2 = 4 := by
  cases hg : p.group with
  | pair1High => simp [groupBase, hg]
  | pair1Low => simp [groupBase, hg]

theorem groupBase_apart (p : Params) {q q' : Pair} (h : q' ≠ q) :
    groupBase p q + 4 ≤ groupBase p q' ∨ groupBase p q' + 4 ≤ groupBase p q := by
  have hbase := groupBase_cases p
  match q, q' with
  | .pair1, .pair2 | .pair2, .pair1 => omega
  | .pair1, .pair1 | .pair2, .pair2 => exact absurd rfl h

theorem permChannel_mem_group (p : Params) (q : Pair) (d : Dir) (k : Coil) :
    permChannel p q d k ∈ groupChannels p q :=
  mem_groupChannels.mpr ⟨Nat.le_add_right _ _, Nat.add_lt_add_left (Fin.isLt _) _⟩

theorem permChannel_notMem_other_group (p : Params) {q q' : Pair} (h : q' ≠ q) (d : Dir)
    (k : Coil) : permChannel p q d k ∉ groupChannels p q' := by
  have hmem := mem_groupChannels.mp (permChannel_mem_group p q d k)
  have hapart := groupBase_apart p h
  rw [mem_groupChannels]
  omega

/-! ## The tables R101 allows -/

theorem mem_coils (k : Coil) : k ∈ coils := by cases k <;> decide

/-- R101 (a): the four coils have four places. -/
theorem CoilMap.bijective_iff_nodup (m : CoilMap) :
    m.bijective = true ↔ (coils.map m.pos).Nodup := by
  simp [CoilMap.bijective, coils, CoilMap.pos, and_assoc]

/-- R101 (b), coil by coil. -/
theorem PairPerm.pos_ne_of_reverses {t : PairPerm} (h : t.reverses = true) (k : Coil) :
    t.cw.pos k ≠ t.ccw.pos k := by
  simp only [PairPerm.reverses, Bool.and_eq_true, bne_iff_ne] at h
  obtain ⟨⟨⟨ha, hb⟩, hc⟩, hd⟩ := h
  cases k <;> assumption

theorem PairPerm.legal_iff (t : PairPerm) :
    t.legal = true ↔ (∀ d, (t.map d).bijective = true) ∧ t.reverses = true := by
  have hboth : (∀ d, (t.map d).bijective = true)
      ↔ t.cw.bijective = true ∧ t.ccw.bijective = true :=
    ⟨fun h => ⟨h .cw, h .ccw⟩, fun ⟨hcw, hccw⟩ d => by cases d <;> assumption⟩
  rw [hboth, PairPerm.legal, Bool.and_eq_true, Bool.and_eq_true]

theorem permTable_legal {p : Params} (h : p.WellFormed) (q : Pair) :
    (permTable p q).legal = true := by
  obtain ⟨h1, h2⟩ := Bool.and_eq_true_iff.mp h
  cases q <;> assumption

section
variable {p : Params} (h : p.WellFormed) (q : Pair)
include h

theorem permChannel_cw_ne_ccw (k : Coil) : permChannel p q .cw k ≠ permChannel p q .ccw k := by
  obtain ⟨-, hrev⟩ := (PairPerm.legal_iff _).mp (permTable_legal h q)
  exact fun hk => PairPerm.pos_ne_of_reverses hrev k (Fin.ext (Nat.add_left_cancel hk))

theorem permChannels_nodup (d : Dir) : (coils.map (permChannel p q d)).Nodup := by
  obtain ⟨hbij, -⟩ := (PairPerm.legal_iff _).mp (permTable_legal h q)
  have hinj : Function.Injective fun i : Fin 4 => groupBase p q + i.val :=
    fun _ _ hij => Fin.ext (Nat.add_left_cancel hij)
  have hplaces := ((CoilMap.bijective_iff_nodup _).mp (hbij d)).map hinj
  rwa [List.map_map] at hplaces

/-- Four coils on different channels of a group of four leave no channel out. -/
theorem permChannels_perm_group (d : Dir) :
    (coils.map (permChannel p q d)).Perm (groupChannels p q) := by
  have hsub : coils.map (permChannel p q d) ⊆ groupChannels p q := fun c hc => by
    obtain ⟨k, -, rfl⟩ := List.mem_map.mp hc
    exact permChannel_mem_group p q d k
  exact ((permChannels_nodup h q d).subperm hsub).perm_of_length_le le_rfl

theorem count_permChannels (d : Dir) (c : Nat) :
    (coils.map (permChannel p q d)).count c = if c ∈ groupChannels p q then 1 else 0 := by
  rw [(permChannels_perm_group h q d).count_eq, (groupChannels_nodup p q).count]

end

/-- Settles O52: the coils fill their group, and the groups are apart. -/
theorem stepCoversItsGroupOnce : Obligations.StepCoversItsGroupOnce := fun p q d h =>
  ⟨count_permChannels h q d, permChannel_le p q d,
    fun _ hq => permChannel_notMem_other_group p hq d⟩

/-! ## The motors -/

/-- STOPALL's channels, in the order it zeroes them (R104, R105). -/
def stopallChannels : List Nat := [6, 7, 4, 5, 2, 3, 0, 1]

theorem flatMap_motorCh :
    (motorIndices.flatMap fun i => [(motorCh i).1, (motorCh i).2]) = stopallChannels := rfl

theorem stopallChannels_nodup : stopallChannels.Nodup := by decide

theorem mem_stopallChannels {c : Nat} : c ∈ stopallChannels ↔ c < 8 := by
  simp only [stopallChannels, List.mem_cons, List.not_mem_nil, or_false]
  omega

/-- Settles O50: the eight channels in a row are 0..7, none twice. -/
theorem motorChannels : Obligations.MotorChannels := by
  refine ⟨rfl, rfl, rfl, rfl, fun c hc => ?_⟩
  rw [flatMap_motorCh]
  exact List.count_eq_one_of_mem stopallChannels_nodup (mem_stopallChannels.mpr hc)

end Sys2Proof.Machine
end

section
/-! PROOFS. The stepper's commands STEP and STOPALL, undisturbed, and the last windows they leave
(spec/42_stepper.md R100, R103, R104, R107). -/

namespace Sys2Proof.Machine

/-! ## STEP -/

/-- The windows of coils A to D on the channels of `PERM(q, d)`. -/
def coilRun (p : Params) (q : Pair) (d : Dir) : List Event :=
  windowRun p coils (permChannel p q d) (phaseOn p) (phaseOff p)

theorem ruleOps_step (p : Params) (f : Bool) (q : Pair) (d : Dir) :
    ruleOps p f (.step q d)
      = ruleOps.start p f
        ++ (windowRunOps p coils (permChannel p q d) (phaseOn p) (phaseOff p)
          ++ [.respond .ok 0x00]) := by
  simp [ruleOps, windowRunOps, coils, phaseOn, phaseOff, PhaseTable.win]

theorem permChannel_le_15 (p : Params) (q : Pair) (d : Dir) :
    ∀ k ∈ coils, permChannel p q d k ≤ 15 :=
  fun k _ => (permChannel_le p q d k).trans (by decide)

/-- STEP, undisturbed (R100). -/
theorem exec_step_quiet (s : State) (q : Pair) (d : Dir) (h : s.quietFor (initMoves s + 5)) :
    exec (.step q d) s
      = .next (s.completed (initEvents s ++ coilRun s.params q d) true ⟨.ok, 0x00⟩
          (initMoves s + 5) (initReads s)) :=
  exec_windowRun _ _ (permChannel_le_15 s.params q d) (ruleOps_step s.params s.initFlag q d) h

theorem exec_step_running {s : State} (hf : s.initFlag = true) (q : Pair) (d : Dir)
    (h : s.quietFor 5) :
    exec (.step q d) s = .next (s.completed (coilRun s.params q d) true ⟨.ok, 0x00⟩ 5 0) := by
  have hinit : initMoves s = 0 ∧ initEvents s = [] ∧ initReads s = 0 := by
    simp [initMoves, initEvents, initReads, hf]
  obtain ⟨hmoves, hevents, hreads⟩ := hinit
  have hexec := exec_step_quiet s q d (by rwa [hmoves])
  rwa [hmoves, hevents, hreads, List.nil_append] at hexec

/-- Settles O21: the run of the four coils' windows; in a table R101 allows they fill the group. -/
theorem stepCompletes : Obligations.StepCompletes := by
  intro s q d hquiet p write
  exact ⟨by simp [opSlice_eq, encode], exec_step_quiet s q d hquiet,
    fun h => count_permChannels h q d⟩

/-! ## Reversing the direction (R103) -/

/-- Both ticks of a coil's window fit 16 bits, so the byte split keeps them (R9). -/
theorem enc16_tick_toNat (x : BitVec 12) : (enc16 (x.toNat : Int)).toNat = x.toNat :=
  enc16_natCast_toNat (x.isLt.le.trans (by decide))

/-- After the four writes each coil's channel holds that coil's window, whatever came before. -/
theorem lastWin_coilRun {p : Params} (h : p.WellFormed) (q : Pair) (d : Dir) (log : List Event)
    (k : Coil) :
    lastWin p (log ++ coilRun p q d) (permChannel p q d k)
      = some ((p.phaseWin.win k).on.toNat, (p.phaseWin.win k).off.toNat) := by
  rw [coilRun, lastWin_windowRun_of_mem _ _ p log (permChannel_le_15 p q d)
    (permChannels_nodup h q d) (mem_coils k), phaseOn, phaseOff, enc16_tick_toNat, enc16_tick_toNat]

/-- Settles O53: the first STEP leaves the block Running, so the second emits its windows only. -/
theorem directionReversal : Obligations.DirectionReversal := by
  intro s q hwf hquiet p window
  have hcw := exec_step_quiet s q .cw (quietFor_mono hquiet (by omega))
  have hccw := exec_step_running
    (s := s.completed (initEvents s ++ coilRun p q .cw) true ⟨.ok, 0x00⟩ (initMoves s + 5)
      (initReads s)) rfl q .ccw (quietFor_later (n := initMoves s + 5) hquiet rfl)
  refine ⟨_, _, hcw, hccw, s.completed_log_append .., fun k => ?_, lastWin_coilRun hwf q .ccw _,
    permChannel_cw_ne_ccw hwf q, permChannel_mem_group p q .ccw, rfl⟩
  rw [State.completed_log_append]
  exact lastWin_coilRun hwf q .cw _ k

/-! ## STOPALL -/

/-- The zero windows of the eight motor channels. -/
def stopallRun (p : Params) : List Event :=
  windowRun p stopallChannels id (fun _ => 0) (fun _ => 0)

theorem ruleOps_stopall (p : Params) (f : Bool) :
    ruleOps p f .stopall
      = ruleOps.start p f
        ++ (windowRunOps p stopallChannels id (fun _ => 0) (fun _ => 0)
          ++ [.respond .ok 0x00]) := by
  simp [ruleOps, windowRunOps, stopallChannels]

theorem stopallChannels_le_15 : ∀ c ∈ stopallChannels, id c ≤ 15 := by decide

/-- STOPALL, undisturbed (R104). -/
theorem exec_stopall_quiet (s : State) (h : s.quietFor (initMoves s + 9)) :
    exec .stopall s
      = .next (s.completed (initEvents s ++ stopallRun s.params) true ⟨.ok, 0x00⟩
          (initMoves s + 9) (initReads s)) :=
  exec_windowRun _ _ stopallChannels_le_15 (ruleOps_stopall s.params s.initFlag) h

/-- Settles O22: the run of eight zero windows. -/
theorem stopallCompletes : Obligations.StopallCompletes := fun s hquiet =>
  ⟨by decide, exec_stopall_quiet s hquiet⟩

theorem lastWin_stopallRun_motor (p : Params) (log : List Event) {c : Nat} (hc : c < 8) :
    lastWin p (log ++ stopallRun p) c = some (0, 0) :=
  lastWin_windowRun_of_mem _ _ p log stopallChannels_le_15 (by simpa using stopallChannels_nodup)
    (mem_stopallChannels.mpr hc)

theorem lastWin_stopallRun_other (p : Params) (log : List Event) {c : Nat} (h8 : 8 ≤ c)
    (h15 : c ≤ 15) : lastWin p (log ++ stopallRun p) c = lastWin p log c := by
  refine lastWin_windowRun_of_notMem _ _ p log stopallChannels_le_15 h15 fun k hk => ?_
  have hk8 := mem_stopallChannels.mp hk
  simp only [id_eq]
  omega

/-- Settles O54: each of the eight channels is in the run, and no channel of 8..15 is. -/
theorem lastWindowsAfterStopall : Obligations.LastWindowsAfterStopall := by
  intro s hquiet
  refine ⟨_, exec_stopall_quiet s hquiet, fun c hc => ?_, fun c h8 h15 => ?_⟩
  · rw [State.completed_log_append, lastWin_stopallRun_motor _ _ hc]
  · rw [State.completed_log_append, lastWin_stopallRun_other _ _ h8 h15,
      lastWin_append_initEvents]

end Sys2Proof.Machine
end

section
/-! PROOFS. The servo mapping and the command SERVO, undisturbed (spec/43_servo.md R110 to R113). -/

namespace Sys2Proof.Machine

/-! ## The mapping (R111, R112) -/

/-- The two inequalities that say the tick is the floor; every bound on ticks below comes from them. -/
theorem servoTick_floor (deg : Int) : 20000 * servoTick deg ≤ (10 * deg + 600) * 4096
    ∧ (10 * deg + 600) * 4096 < 20000 * (servoTick deg + 1) := by
  rw [servoTick_eq]
  omega

/-- Settles O47: the tick is the Euclidean quotient, which its two inequalities pin. -/
theorem servoTickIsTheFloor : Obligations.ServoTickIsTheFloor :=
  ⟨servoTick_floor, by decide, by decide, by decide⟩

/-- The slope is 2.048 ticks a degree (R112). -/
theorem servoTick_succ_sub (deg : Int) :
    servoTick (deg + 1) - servoTick deg = 2 ∨ servoTick (deg + 1) - servoTick deg = 3 := by
  have h := servoTick_floor deg
  have hsucc := servoTick_floor (deg + 1)
  omega

theorem servoTick_strictMono : StrictMono servoTick :=
  strictMono_int_of_lt_succ fun deg => by
    have h := servoTick_succ_sub deg
    omega

theorem servoTick_30 : servoTick 30 = 184 := by decide

theorem servoTick_155 : servoTick 155 = 440 := by decide

theorem servoTick_lowest : servoTick (-32768) = -66986 := by decide

theorem servoTick_highest : servoTick 32767 = 67229 := by decide

/-- Between two degrees the ticks lie between the two degrees' ticks. -/
theorem servoTick_bounds {lo hi deg : Int} (hlo : lo ≤ deg) (hhi : deg ≤ hi) :
    servoTick lo ≤ servoTick deg ∧ servoTick deg ≤ servoTick hi :=
  ⟨servoTick_strictMono.monotone hlo, servoTick_strictMono.monotone hhi⟩

/-- The degrees whose ticks are those of a 12-bit window (R112). -/
theorem servoTick_inRange_iff (deg : Int) :
    (0 ≤ servoTick deg ∧ servoTick deg ≤ 4095) ↔ (-60 ≤ deg ∧ deg ≤ 1939) := by
  have h := servoTick_floor deg
  omega

/-- Settles O48: strict monotonicity from the slope, and the ranges from the ticks at their ends. -/
theorem servoTickRange : Obligations.ServoTickRange := by
  refine ⟨servoTick_succ_sub, fun _ _ h => servoTick_strictMono h, servoTick_inRange_iff,
    fun deg hlo hhi => ?_, servoTick_30, servoTick_155, servoTick_lowest, servoTick_highest⟩
  simpa only [servoTick_30, servoTick_155] using servoTick_bounds hlo hhi

/-! ## The bytes sent for a tick (R113) -/

/-- Within two turns of the 16-bit value, three ranges of integers are sent as a 12-bit one. -/
theorem enc16_le_4095_iff {v : Int} (hlo : -126976 ≤ v) (hhi : v < 131072) :
    (enc16 v).toNat ≤ 4095 ↔
      (-65536 ≤ v ∧ v ≤ -61441) ∨ (0 ≤ v ∧ v ≤ 4095) ∨ (65536 ≤ v ∧ v ≤ 69631) := by
  have h := enc16_toNat v
  omega

/-- The degrees of the DEG field whose negative ticks alias into the range (R110). -/
theorem servoTick_aliasLow_iff (deg : Int) :
    (-65536 ≤ servoTick deg ∧ servoTick deg ≤ -61441) ↔ (-32060 ≤ deg ∧ deg ≤ -30061) := by
  have h := servoTick_floor deg
  omega

/-- The degrees whose ticks above the 16-bit values alias into the range; 32767 is one of them (R110). -/
theorem servoTick_aliasHigh_iff (deg : Int) :
    (65536 ≤ servoTick deg ∧ servoTick deg ≤ 69631) ↔ (31940 ≤ deg ∧ deg ≤ 33939) := by
  have h := servoTick_floor deg
  omega

/-- The degrees of the DEG field whose 16-bit value looks like an in-range tick (R110). -/
theorem enc16_servoTick_le_4095_iff {deg : Int} (hlo : -32768 ≤ deg) (hhi : deg ≤ 32767) :
    (enc16 (servoTick deg)).toNat ≤ 4095 ↔
      (-32060 ≤ deg ∧ deg ≤ -30061) ∨ (-60 ≤ deg ∧ deg ≤ 1939) ∨ 31940 ≤ deg := by
  obtain ⟨hmin, hmax⟩ := servoTick_bounds hlo hhi
  rw [servoTick_lowest] at hmin
  rw [servoTick_highest] at hmax
  rw [enc16_le_4095_iff (by omega) (by omega), servoTick_aliasLow_iff, servoTick_inRange_iff,
    servoTick_aliasHigh_iff]
  omega

/-- The ticks just below 0 are sent from the top of the 16-bit values (R110). -/
theorem enc16_servoTick_of_slightly_negative {deg : Int} (hlo : -2060 ≤ deg) (hhi : deg ≤ -61) :
    61440 ≤ (enc16 (servoTick deg)).toNat ∧ (enc16 (servoTick deg)).toNat ≤ 65533 := by
  have htick : -4096 ≤ servoTick deg ∧ servoTick deg ≤ -3 := by
    have h := servoTick_floor deg
    omega
  have henc := enc16_toNat (servoTick deg)
  omega

theorem highNibble_eq_F_of_le {b : Byte} (h : 240 ≤ b.toNat) : b.extractLsb' 4 4 = 0xF := by
  have hquot : b.toNat / 16 = 15 := by have := b.isLt; omega
  apply BitVec.eq_of_toNat_eq
  simp [Nat.shiftRight_eq_div_pow, hquot]

/-- A 16-bit value of 61440 or more sets bits 7:4 of its high byte. -/
theorem thi_highNibble_eq_F {v : Int} (h : 61440 ≤ (enc16 v).toNat) :
    (thi v).extractLsb' 4 4 = 0xF := by
  apply highNibble_eq_F_of_le
  rw [thi_toNat]
  omega

/-- Settles O49: the in-range degrees and the two alias ranges, the ticks just below 0, and the rows of
R113's table. -/
theorem servoBytesOutOfRange : Obligations.ServoBytesOutOfRange := by
  refine ⟨fun deg hlo hhi => enc16_servoTick_le_4095_iff hlo hhi, fun deg hlo hhi => ?_,
    by decide, by decide, by decide, by decide⟩
  obtain ⟨hmin, hmax⟩ := enc16_servoTick_of_slightly_negative hlo hhi
  exact ⟨hmin, hmax, thi_highNibble_eq_F hmin⟩

/-! ## SERVO (R110) -/

/-- SERVO's rule is EnsureInit and a run of one window, on PEN_CH. -/
theorem ruleOps_servo (p : Params) (f : Bool) (deg : Int) :
    ruleOps p f (.servo deg)
      = ruleOps.start p f
        ++ (windowRunOps p [p.penCh.val] id (fun _ => 0)
            (fun _ => (10 * deg + 600) * 4096 / 20000)
          ++ [.respond .ok 0x00]) := by
  simp [ruleOps, windowRunOps]

/-- PEN_CH is a channel of the chip, so `Win`'s no-op path is not taken (R6, R110). -/
theorem penCh_le_15 (p : Params) : ∀ c ∈ [p.penCh.val], id c ≤ 15 :=
  List.forall_mem_singleton.mpr (Nat.le_of_lt_succ p.penCh.isLt)

/-- Settles O23: the run of the one window on PEN_CH. -/
theorem servoCompletes : Obligations.ServoCompletes := fun s deg hquiet =>
  ⟨by simp [opSlice_eq, encode],
    exec_windowRun _ _ (penCh_le_15 s.params) (ruleOps_servo s.params s.initFlag deg) hquiet⟩

end Sys2Proof.Machine
end

section
/-! PROOFS. The illegal word, and what a legal command answers and does to the flag
(spec/60_exceptions.md R120 to R128). -/

namespace Sys2Proof.Machine

/-! ## The illegal word (R121) -/

/-- Settles O8: acceptance is one undisturbed move, and the response is a run without writes. -/
theorem illegalWordIsAnsweredIllegal : Obligations.IllegalWordIsAnsweredIllegal := by
  intro s w rest why hquiet hp hport hdec
  have hlater : (s.accept w rest).quietFor 1 := quietFor_later (n := 1) hquiet rfl
  have hrun := runOps_writes_respond (l := []) (List.forall_mem_nil _) _ hlater .illegal 0x00 0
  rw [step_accepts_word (State.inputDue_of_quietFor hquiet) hp hport, hdec]
  simpa [raiseIllegal, State.completed, laterSchedule_add, hp] using hrun

/-! ## No step stops (R120) -/

/-- Settles O32: an Idle block waits or accepts, and a Busy one still has a primitive to perform. -/
theorem blockNeverStops : Obligations.BlockNeverStops := by
  intro s hI
  cases hd : s.inputDue with
  | true =>
    obtain ⟨e, rest, hs⟩ := (inputDue_true_iff s).mp hd
    exact ⟨_, step_input hs⟩
  | false =>
    cases hp : s.phase with
    | idle =>
      cases hport : s.port with
      | nil => exact ⟨_, step_waits hd hp hport⟩
      | cons w rest => exact ⟨_, step_accepts hd hp hport⟩
    | busy c i todo =>
      obtain ⟨f, l, d, done, h⟩ := (blockInvariant_busy hp).mp hI
      obtain ⟨op, rest, rfl⟩ := List.exists_cons_of_ne_nil h.unfinished
      exact ⟨_, step_busy hd hp⟩

/-! ## How a run inside a command ends -/

/-- A run inside a command is cut without a response, with an outside input due, or ends with the
command's last primitive, the only one that gives a response. In both cases it has performed a first
part `a` of its primitives, which gives the log and the flag. -/
theorem WellOrdered.runOps_ends {r : Bool} {l : List Op} (h : WellOrdered r l) (s : State) :
    ∃ a b u, l = a ++ b ∧ Performed s u r a
      ∧ (runOps l s).log = u.log ∧ (runOps l s).initFlag = u.initFlag
      ∧ (((runOps l s).responses = u.responses ∧ (runOps l s).inputDue = true)
        ∨ ∃ op, l.getLast? = some op ∧ runOps l s = u.tick.perform op) := by
  rcases runOps_cases h.ne_nil s with ⟨a, op, b, rfl, hdue, hrun⟩ | ⟨a, op, rfl, hrun⟩
  · refine ⟨a, op :: b, performAll a s, rfl, performed_performAll h (List.cons_ne_nil op b), ?_⟩
    rw [hrun]
    exact ⟨rfl, rfl, .inl ⟨rfl, hdue⟩⟩
  · obtain ⟨x, hx⟩ := (h.of_append (List.cons_ne_nil op [])).perform_last (performAll a s).tick
    refine ⟨a, [op], performAll a s, rfl, performed_performAll h (List.cons_ne_nil op []), ?_⟩
    rw [hrun, hx]
    exact ⟨rfl, rfl, .inr ⟨op, List.getLast?_concat, hx.symm⟩⟩

/-! ## The flag (R128) -/

theorem runOps_initFlag_of_notMem {l : List Op} (hl : Op.setInitFlag ∉ l) (s : State) :
    (runOps l s).initFlag = s.initFlag := by
  have h := congrArg State.initFlag (runOps_with_initFlag hl s s.initFlag)
  exact h

/-- A first part of a command's pseudocode that has set the flag begins with all of EnsureInit. -/
theorem ProcShape.initOps_isPrefix {p : Params} {pr : Proc} (h : ProcShape p pr)
    {done todo : List Op} (hsplit : (pr false).1 = done ++ todo) (hmem : Op.setInitFlag ∈ done) :
    initOps p <+: done := by
  have hall : Op.setInitFlag ∈ (pr false).1 := by simp [hsplit, hmem]
  cases h with
  | driver l hl hshape =>
    rw [hshape, ensureInit_eq] at hsplit
    exact initOps_isPrefix_of_setInitFlag_mem hsplit.symm hmem
  | raw l hl st hshape => simp [hshape, setInitFlag_notMem_of_onlyWrites hl] at hall
  | read reg hshape => simp [hshape] at hall

/-- A command that leaves the flag changed found it clear and has emitted the sequence of R96 first. -/
theorem exec_initFlag {i : Instr} {s t : State} (h : exec i s = .next t) :
    t.initFlag = s.initFlag
      ∨ (s.initFlag = false ∧ t.initFlag = true
          ∧ ∃ b evs, t.log = s.log ++ initSeq s.params b ++ evs) := by
  rw [exec_eq] at h
  cases h
  obtain ⟨a, b, u, hsplit, hu, hlog, hflag, -⟩ :=
    (commandProc_wellOrdered s.params i s.initFlag).runOps_ends s
  rw [hlog, hflag, hu.log_eq, hu.flag_eq]
  cases hs : s.initFlag with
  | true => exact .inl rfl
  | false =>
    by_cases hmem : Op.setInitFlag ∈ a
    · rw [hs] at hsplit
      obtain ⟨rest, rfl⟩ := (commandProc_shape s.params i).initOps_isPrefix hsplit hmem
      exact .inr ⟨rfl, by simpa using hmem, s.readByte false,
        opEvents s.params (s.readByte false) rest, by simp [opEvents_initOps]⟩
    · exact .inl (by simpa using hmem)

/-- Settles O37: a command sets the flag after EnsureInit's events, an illegal word's response does not
write it, and a step that sets it leads to a Running block that meets the invariant. -/
theorem flagChangesOnlyInsideEnsureInit : Obligations.FlagChangesOnlyInsideEnsureInit := by
  refine ⟨fun i s t h => exec_initFlag h, fun s => runOps_initFlag_of_notMem (by simp) s, ?_⟩
  intro s t hI h hne
  cases hs : s.initFlag with
  | true => exact .inr (onlyResetClearsTheFlag s t h hs (by simpa [hs] using hne))
  | false =>
    have ht : t.initFlag = true := by simpa [hs] using hne
    have hseq := runningBlockWasInitialized t (everyStepKeepsTheInvariant s t hI h) ht
    rw [step_params h] at hseq
    exact .inl ⟨rfl, ht, hseq⟩

/-! ## The response of a legal command (R120, R122) -/

/-- What O41 says of a run of the command `i` from `s` to `t`: it was cut before its response, or it has
given one response OK, whose byte is 0x00 unless `i` is RDREG. -/
def RespondsOk (i : Instr) (s t : State) : Prop :=
  (t.responses = s.responses ∧ t.inputDue = true)
    ∨ ∃ d, t.responses = s.responses ++ [⟨.ok, d⟩] ∧ t.phase = .idle
        ∧ (d = 0x00 ∨ ∃ reg, i = .rdreg reg)

/-- A legal command's last primitive answers OK: with the byte read for RDREG (R84), else with 0x00. -/
theorem commandProc_getLast? (p : Params) (i : Instr) (f : Bool) :
    (commandProc p i f).1.getLast? = some (.respond .ok 0x00)
      ∨ ((commandProc p i f).1.getLast? = some .respondRead ∧ ∃ reg, i = .rdreg reg) := by
  cases i with
  | rdreg reg => exact .inr ⟨rfl, reg, rfl⟩
  | _ =>
    exact .inl (by
      simp [commandProc, initProc, setchProc, stepProc, servoProc, stopallProc, setwinProc,
        wrregProc, wrcmdProc, respondOk])

/-- What is left of a legal command's pseudocode, run, ends in the command's response OK or is cut before
it. -/
theorem respondsOk_runOps {p : Params} {i : Instr} {f : Bool} {done todo : List Op}
    (hsplit : (commandProc p i f).1 = done ++ todo) (hne : todo ≠ []) (s : State) :
    RespondsOk i s (runOps todo s) := by
  have hw := commandProc_wellOrdered p i f
  rw [hsplit] at hw
  obtain ⟨a, b, u, -, hu, -, -, ⟨hcut, hdue⟩ | ⟨op, hop, hrun⟩⟩ :=
    (hw.of_append hne).runOps_ends s
  · exact .inl ⟨hcut.trans hu.responses_eq, hdue⟩
  · have hlast := commandProc_getLast? p i f
    rw [hsplit, List.getLast?_append_of_ne_nil _ hne, hop] at hlast
    rw [hrun]
    rcases hlast with h | ⟨h, hread⟩
    · cases h
      exact .inr ⟨0x00, by simp [hu.responses_eq], rfl, .inl rfl⟩
    · cases h
      exact .inr ⟨u.readData, by simp [hu.responses_eq], rfl, .inr hread⟩

/-- A run without a response ILLEGAL stays so where it is given none or one OK. -/
theorem RespondsOk.noIllegal {i : Instr} {s t : State} (h : RespondsOk i s t)
    (hhist : t.history = s.history) (hs : s.noIllegal = true) : t.noIllegal = true := by
  rcases h with ⟨hresp, -⟩ | ⟨d, hresp, -, -⟩ <;>
    simpa [State.noIllegal, hresp, hhist] using hs

/-- Settles O41: a command's run, from its start or from the place it was cut at, is cut again or ends
with its last primitive. -/
theorem legalCommandsRespondOk : Obligations.LegalCommandsRespondOk := by
  refine ⟨fun i s t h => ?_, fun i s t c k todo hI hp hdec hd h => ?_⟩
  · rw [exec_eq] at h
    cases h
    have hne := (commandProc_wellOrdered s.params i s.initFlag).ne_nil
    have hresp : RespondsOk i s _ := respondsOk_runOps (List.nil_append _).symm hne s
    exact ⟨hresp, hresp.noIllegal (runOps_keeps _ s).2.2⟩
  · obtain ⟨f, l, d, done, hplace⟩ := (blockInvariant_busy hp).mp hI
    have hsplit : (commandProc s.params i f).1 = done ++ todo := by
      simpa [wordProc, hdec] using hplace.split
    obtain ⟨op, rest, rfl⟩ := List.exists_cons_of_ne_nil hplace.unfinished
    rw [step_busy hd hp] at h
    cases h
    exact respondsOk_runOps hsplit hplace.unfinished s

end Sys2Proof.Machine
end

section
/-! PROOFS. Reset, from any state and inside a command, the wait at the empty port, and the history that no
step forgets (spec/70_reset_and_hazards.md R140, R141). -/

namespace Sys2Proof.Machine

/-! ## Reset and the wait at the empty port (R140) -/

theorem step_reset {s : State} {rest : List (Nat × EnvInput)} (h : s.schedule = (0, .reset) :: rest) :
    step s = .next { s with schedule := rest }.applyReset := step_input h

/-- Settles O9: `State.tick` writes the schedule alone. -/
theorem idleBlockWaitsAtItsPort : Obligations.IdleBlockWaitsAtItsPort := by
  intro s hd hp hport
  exact step_waits hd hp hport

/-- Settles O13: a due reset is the whole step, and `State.applyReset` writes exactly the fields the
statement names. -/
theorem resetFromEveryState : Obligations.ResetFromEveryState := by
  intro s rest h
  exact step_reset h

/-! ## A reset inside a command (R124, R141) -/

/-- Settles O28: the cut command stands after its first n primitives, with the reset due; the reset puts
the log they left into the history, and none of them was the response. -/
theorem resetInsideACommandAbortsIt : Obligations.ResetInsideACommandAbortsIt := by
  intro i s c k n rest ops hp hs hn
  have hdone : Performed s (performAll (ops.take n) s) false (ops.take n) := performed_take i s hn
  have hdue : (performAll (ops.take n) s).schedule = (0, .reset) :: rest := by
    simp [performAll_schedule, hs, List.length_take_of_le hn.le]
  refine ⟨_, _, exec_cut hs hn, step_reset hdue, rfl, rfl, rfl, rfl, ?_, hdone.port_eq,
    hdone.params_eq, rfl⟩
  rw [State.applyReset_history, hdone.history_eq, hdone.log_eq, hdone.responses_eq]
  rfl

/-! ## The trace (R141) -/

theorem State.trace_applyReset (s : State) : s.applyReset.trace = s.trace ++ [.resetMark] := by
  simp [State.trace]

/-- A longer log after the same resets is a longer trace. -/
theorem State.trace_extends {s t : State} (hhistory : t.history = s.history)
    (hlog : ∃ evs, t.log = s.log ++ evs) : ∃ items, t.trace = s.trace ++ items := by
  obtain ⟨evs, hlog⟩ := hlog
  exact ⟨evs.map .event, by simp [State.trace, hhistory, hlog]⟩

/-- A reset adds its marker to the trace; every other step adds the events it appends to the log. -/
theorem step_trace_extends {s t : State} (h : step s = .next t) :
    ∃ items, t.trace = s.trace ++ items := by
  rcases step_cases h with ⟨e, rest, -, rfl⟩ | ⟨-, c, i, op, rest, -, rfl⟩ | ⟨-, -, -, rfl⟩
    | ⟨-, -, w, rest, l, -, rfl⟩
  · cases e with
    | wait => exact ⟨[], (List.append_nil _).symm⟩
    | reset => exact ⟨_, State.trace_applyReset { s with schedule := rest }⟩
  · exact State.trace_extends (runOps_keeps _ s).2.2 (runOps_log_extends _ s)
  · exact ⟨[], (List.append_nil _).symm⟩
  · exact State.trace_extends (runOps_keeps l (s.accept w rest)).2.2
      (runOps_log_extends l (s.accept w rest))

/-- Settles O40: every step extends the trace, and a due reset is the whole step. -/
theorem traceOnlyGrows : Obligations.TraceOnlyGrows := by
  intro s t h
  refine ⟨step_trace_extends h, fun rest hs => ?_⟩
  rw [step_reset hs] at h
  cases h
  exact State.trace_applyReset { s with schedule := rest }

end Sys2Proof.Machine
end

section
/-! PROOFS. The written-out words of spec/95_test_vectors.md 2.1: a legal one is its command's encoding,
an illegal one meets no row of the opcode map. -/

namespace Sys2Proof

theorem decode_of_encode_eq {i : Instr} {w : Word} (hi : i.WellFormed) (hw : encode i = w) :
    decode w = .command i :=
  hw ▸ decodeUndoesEncode i hi

/-- Settles O6: ten words are the encodings of well-formed commands, one has no row's OP, and one has
STEP's OP with bit 49 set. -/
theorem decodeOfWrittenOutWords : Obligations.DecodeOfWrittenOutWords := by
  have hop : ∀ r ∈ opcodeTable, opField 0x0000000000000000#64 ≠ opField r.pattern := by decide
  have hrow : ⟨.STEP, 0x0300000000000000#64, 0xFFFEFFFEFFFFFFFF#64⟩ ∈ opcodeTable := by decide
  exact
    ⟨decode_of_encode_eq wellFormed_init rfl,
      decode_of_encode_eq ((wellFormed_setch 3 0 2047).mpr (by decide)) rfl,
      decode_of_encode_eq (wellFormed_step .pair2 .cw) rfl,
      decode_of_encode_eq (wellFormed_step .pair1 .ccw) rfl,
      decode_of_encode_eq ((wellFormed_servo (-61)).mpr (by decide)) rfl,
      decode_of_encode_eq wellFormed_stopall rfl,
      decode_of_encode_eq ((wellFormed_setwin 255 1 1).mpr (by decide)) rfl,
      decode_of_encode_eq ((wellFormed_wrreg 0 0x1FF).mpr (by decide)) rfl,
      decode_of_encode_eq ((wellFormed_wrcmd 0xFF00).mpr (by decide)) rfl,
      decode_of_encode_eq ((wellFormed_rdreg 0).mpr (by decide)) rfl,
      decode_of_unassigned hop,
      decode_of_not_selects hrow rfl (by decide)⟩

end Sys2Proof
end
